-- ==== Sys2Proof/Word.lean ====
section
/-! DEFINITION. The machine's words: every value is an unsigned bit vector of a stated width (R6, `00_scope.md`). -/

namespace Sys2Proof

/-- A memory cell, a general register, a timer or an 8-bit immediate `nn` (R5, R46). -/
abbrev Byte := BitVec 8

/-- The program counter, the index register, a stack entry or an instruction word (R5, R45). -/
abbrev Word := BitVec 16

/-- A register number `x` or `y`: all 16 values are legal (R46). -/
abbrev RegName := BitVec 4

/-- The 4-bit immediate `n`, a count of sprite rows (R46). -/
abbrev Nibble := BitVec 4

/-- The 12-bit address or literal `nnn` (R46). -/
abbrev Addr := BitVec 12

end Sys2Proof
end

