-- ==== Sys2Proof/Config.lean ====
section
/-! DEFINITION. What is fixed for the machine (R5, `00_scope.md`), and the one free value, the random byte of `RND`. -/

namespace Sys2Proof.Config

/-- MEM_SIZE: the number of memory cells, addresses 0x000 to 0xFFF (R5, R30). -/
abbrev memSize : Nat := 0x1000

/-- PROG_BASE: the address of the first ROM byte and the pc after reset (R5, R24). -/
abbrev progBase : Nat := 0x200

/-- ROM_MAX: the largest ROM image, 4096 - 0x200 bytes (R5, R126). -/
abbrev romMax : Nat := memSize - progBase

/-- FONT_BASE: the address of glyph 0 (R5, R31). -/
abbrev fontBase : Nat := 0x50

/-- FONT_GLYPH_BYTES: the stride of the font table (R5, R32). -/
abbrev fontGlyphBytes : Nat := 5

/-- FONT_SIZE: 16 glyphs of 5 bytes (R5). -/
abbrev fontSize : Nat := 80

/-- STACK_DEPTH: the number of return addresses the stack holds (R5, R15). -/
abbrev stackDepth : Nat := 16

/-- DESIGN CHOICE (log entry 1). The free value `rand` of R23 and R94 (`45_random.md`): the byte of the
`n`-th `RND` of the machine's life, where the host hands none in. It has no body, so nothing proved of the model rests on a value of it. Safe. -/
opaque randomByte : Nat → Byte

end Sys2Proof.Config
end

