-- ==== Sys2Proof/Syntax.lean ====
section
/-! DEFINITION. The 34 instructions (R49, `30_encoding.md`; `opcode_table.json`), one constructor per row, in the table's
order. Unknown words are no instruction: the decoder answers none for them (R51). -/

namespace Sys2Proof

/-- An instruction with its operands, each of exactly the width its field has in the instruction word (R46). -/
inductive Instr where
  /-- 00E0 `CLS` (R95). -/
  | cls
  /-- 00EE `RET` (R72). -/
  | ret
  /-- 1nnn `JP addr` (R70). -/
  | jpAddr (nnn : Addr)
  /-- 2nnn `CALL addr` (R71). -/
  | callAddr (nnn : Addr)
  /-- 3xnn `SE Vx,nn` (R75). -/
  | seVxNn (x : RegName) (nn : Byte)
  /-- 4xnn `SNE Vx,nn` (R76). -/
  | sneVxNn (x : RegName) (nn : Byte)
  /-- 5xy0 `SE Vx,Vy` (R77). -/
  | seVxVy (x y : RegName)
  /-- 6xnn `LD Vx,nn` (R80). -/
  | ldVxNn (x : RegName) (nn : Byte)
  /-- 7xnn `ADD Vx,nn` (R81). -/
  | addVxNn (x : RegName) (nn : Byte)
  /-- 8xy0 `LD Vx,Vy` (R82). -/
  | ldVxVy (x y : RegName)
  /-- 8xy1 `OR Vx,Vy` (R83). -/
  | orVxVy (x y : RegName)
  /-- 8xy2 `AND Vx,Vy` (R84). -/
  | andVxVy (x y : RegName)
  /-- 8xy3 `XOR Vx,Vy` (R85). -/
  | xorVxVy (x y : RegName)
  /-- 8xy4 `ADD Vx,Vy` (R86). -/
  | addVxVy (x y : RegName)
  /-- 8xy5 `SUB Vx,Vy` (R87). -/
  | subVxVy (x y : RegName)
  /-- 8xy6 `SHR Vx` (R88); the word's `y` field is kept so that no bit is dropped, and ignored (R52). -/
  | shrVx (x y : RegName)
  /-- 8xy7 `SUBN Vx,Vy` (R89). -/
  | subnVxVy (x y : RegName)
  /-- 8xyE `SHL Vx` (R90); the word's `y` field is kept so that no bit is dropped, and ignored (R52). -/
  | shlVx (x y : RegName)
  /-- 9xy0 `SNE Vx,Vy` (R78). -/
  | sneVxVy (x y : RegName)
  /-- Annn `LD I,nnn` (R91). -/
  | ldINnn (nnn : Addr)
  /-- Bnnn `JP V0,addr` (R73). -/
  | jpV0Addr (nnn : Addr)
  /-- Cxnn `RND Vx,nn` (R94). -/
  | rndVxNn (x : RegName) (nn : Byte)
  /-- Dxyn `DRW Vx,Vy,n` (R96). -/
  | drwVxVyN (x y : RegName) (n : Nibble)
  /-- Ex9E `SKP Vx` (R97). -/
  | skpVx (x : RegName)
  /-- ExA1 `SKNP Vx` (R98). -/
  | sknpVx (x : RegName)
  /-- Fx07 `LD Vx,DT` (R100). -/
  | ldVxDT (x : RegName)
  /-- Fx0A `LD Vx,K` (R99). -/
  | ldVxK (x : RegName)
  /-- Fx15 `LD DT,Vx` (R101). -/
  | ldDTVx (x : RegName)
  /-- Fx18 `LD ST,Vx` (R102). -/
  | ldSTVx (x : RegName)
  /-- Fx1E `ADD I,Vx` (R92). -/
  | addIVx (x : RegName)
  /-- Fx29 `LD F,Vx` (R93). -/
  | ldFVx (x : RegName)
  /-- Fx33 `LD B,Vx` (R105). -/
  | ldBVx (x : RegName)
  /-- Fx55 `LD [I],Vx` (R103). -/
  | ldMemIVx (x : RegName)
  /-- Fx65 `LD Vx,[I]` (R104). -/
  | ldVxMemI (x : RegName)
  deriving DecidableEq, Repr

end Sys2Proof
end

