-- ==== Sys2Proof/WellFormed.lean ====
section
/-! DEFINITION. Which instructions and which ROM images are well-formed. -/

namespace Sys2Proof

/-- Every instruction is well-formed: an operand's type has exactly the width of its field, and all values of every field are
legal (R46, R48, R52, `30_encoding.md`), so an ill-formed instruction cannot be written down. -/
def Instr.wellFormed (_ : Instr) : Bool := true

/-- A ROM image the load accepts: at most ROM_MAX bytes, the empty image included (R126, `60_exceptions.md`). -/
def romWellFormed (rom : List Byte) : Bool := decide (rom.length ≤ Config.romMax)

end Sys2Proof
end

