-- ==== Sys2Proof/Decode.lean ====
section
/-! DEFINITION. The decoder (R45 to R51, `30_encoding.md`), the encoder written from the same formats (R47), and the opcode
table of R49 as data. The numeric patterns are the spec's decision D3, not confirmed by the source (log entry 8, UNVERIFIED). -/

namespace Sys2Proof

/-- The instruction word of two bytes in memory order: big-endian (R35, R45). -/
def wordOfBytes (hi lo : Byte) : Word := hi ++ lo

/-- The two bytes of an instruction word in memory order (R45). -/
def bytesOfWord (w : Word) : List Byte := [w.extractLsb' 8 8, w.extractLsb' 0 8]

/-- `n1`, bits 15:12: the major opcode (R46). -/
def fieldN1 (w : Word) : Nibble := w.extractLsb' 12 4
/-- `x = n2`, bits 11:8 (R46). -/
def fieldX (w : Word) : RegName := w.extractLsb' 8 4
/-- `y = n3`, bits 7:4 (R46). -/
def fieldY (w : Word) : RegName := w.extractLsb' 4 4
/-- `n = n4`, bits 3:0 (R46). -/
def fieldN (w : Word) : Nibble := w.extractLsb' 0 4
/-- `nn`, bits 7:0 (R46). -/
def fieldNn (w : Word) : Byte := w.extractLsb' 0 8
/-- `nnn`, bits 11:0 (R46). -/
def fieldNnn (w : Word) : Addr := w.extractLsb' 0 12

/-- The words with `n1 = 0` (R50). -/
def decode0 (w : Word) : Option Instr :=
  if w = 0x00E0 then some .cls
  else if w = 0x00EE then some .ret
  else none

/-- The words with `n1 = 8`, told apart by `n4` (R50). -/
def decode8 (w : Word) : Option Instr :=
  match (fieldN w).toNat with
  | 0x0 => some (.ldVxVy (fieldX w) (fieldY w))
  | 0x1 => some (.orVxVy (fieldX w) (fieldY w))
  | 0x2 => some (.andVxVy (fieldX w) (fieldY w))
  | 0x3 => some (.xorVxVy (fieldX w) (fieldY w))
  | 0x4 => some (.addVxVy (fieldX w) (fieldY w))
  | 0x5 => some (.subVxVy (fieldX w) (fieldY w))
  | 0x6 => some (.shrVx (fieldX w) (fieldY w))
  | 0x7 => some (.subnVxVy (fieldX w) (fieldY w))
  | 0xE => some (.shlVx (fieldX w) (fieldY w))
  | _ => none

/-- The words with `n1 = E`, told apart by `nn` (R50). -/
def decodeE (w : Word) : Option Instr :=
  if fieldNn w = 0x9E then some (.skpVx (fieldX w))
  else if fieldNn w = 0xA1 then some (.sknpVx (fieldX w))
  else none

/-- The words with `n1 = F`, told apart by `nn` (R50). -/
def decodeF (w : Word) : Option Instr :=
  if fieldNn w = 0x07 then some (.ldVxDT (fieldX w))
  else if fieldNn w = 0x0A then some (.ldVxK (fieldX w))
  else if fieldNn w = 0x15 then some (.ldDTVx (fieldX w))
  else if fieldNn w = 0x18 then some (.ldSTVx (fieldX w))
  else if fieldNn w = 0x1E then some (.addIVx (fieldX w))
  else if fieldNn w = 0x29 then some (.ldFVx (fieldX w))
  else if fieldNn w = 0x33 then some (.ldBVx (fieldX w))
  else if fieldNn w = 0x55 then some (.ldMemIVx (fieldX w))
  else if fieldNn w = 0x65 then some (.ldVxMemI (fieldX w))
  else none

/-- `decode(w)` of R50: the instruction of a word, none for an unknown opcode (R51). -/
def decodeWord (w : Word) : Option Instr :=
  match (fieldN1 w).toNat with
  | 0x0 => decode0 w
  | 0x1 => some (.jpAddr (fieldNnn w))
  | 0x2 => some (.callAddr (fieldNnn w))
  | 0x3 => some (.seVxNn (fieldX w) (fieldNn w))
  | 0x4 => some (.sneVxNn (fieldX w) (fieldNn w))
  | 0x5 => if fieldN w = 0 then some (.seVxVy (fieldX w) (fieldY w)) else none
  | 0x6 => some (.ldVxNn (fieldX w) (fieldNn w))
  | 0x7 => some (.addVxNn (fieldX w) (fieldNn w))
  | 0x8 => decode8 w
  | 0x9 => if fieldN w = 0 then some (.sneVxVy (fieldX w) (fieldY w)) else none
  | 0xA => some (.ldINnn (fieldNnn w))
  | 0xB => some (.jpV0Addr (fieldNnn w))
  | 0xC => some (.rndVxNn (fieldX w) (fieldNn w))
  | 0xD => some (.drwVxVyN (fieldX w) (fieldY w) (fieldN w))
  | 0xE => decodeE w
  | 0xF => decodeF w
  | _ => none

/-- Why a byte sequence holds no instruction. -/
inductive DecodeError where
  /-- Fewer than two bytes: every instruction is exactly two bytes long (R45). -/
  | truncated
  /-- The word matches no row of R49; executed, it is a no-op (R51, R64). -/
  | unknownOpcode (w : Word)
  deriving DecidableEq, Repr

/-- The instruction at the head of any byte sequence and the bytes after it, or the reason why there is none. -/
def decodeBytes : List Byte → Except DecodeError (Instr × List Byte)
  | hi :: lo :: rest =>
    match decodeWord (wordOfBytes hi lo) with
    | some i => .ok (i, rest)
    | none => .error (.unknownOpcode (wordOfBytes hi lo))
  | _ => .error .truncated

/-- Format NNN (R47). -/
def encodeNnn (n1 : Nibble) (nnn : Addr) : Word := n1 ++ nnn
/-- Format XNN (R47). -/
def encodeXnn (n1 : Nibble) (x : RegName) (nn : Byte) : Word := (n1 ++ x : Byte) ++ nn
/-- Formats XY and XYN (R47). -/
def encodeXyn (n1 : Nibble) (x y : RegName) (n : Nibble) : Word := (n1 ++ x : Byte) ++ (y ++ n : Byte)

/-- The instruction word of an instruction (R47, R49). -/
def encode : Instr → Word
  | .cls => 0x00E0
  | .ret => 0x00EE
  | .jpAddr nnn => encodeNnn 0x1 nnn
  | .callAddr nnn => encodeNnn 0x2 nnn
  | .seVxNn x nn => encodeXnn 0x3 x nn
  | .sneVxNn x nn => encodeXnn 0x4 x nn
  | .seVxVy x y => encodeXyn 0x5 x y 0x0
  | .ldVxNn x nn => encodeXnn 0x6 x nn
  | .addVxNn x nn => encodeXnn 0x7 x nn
  | .ldVxVy x y => encodeXyn 0x8 x y 0x0
  | .orVxVy x y => encodeXyn 0x8 x y 0x1
  | .andVxVy x y => encodeXyn 0x8 x y 0x2
  | .xorVxVy x y => encodeXyn 0x8 x y 0x3
  | .addVxVy x y => encodeXyn 0x8 x y 0x4
  | .subVxVy x y => encodeXyn 0x8 x y 0x5
  | .shrVx x y => encodeXyn 0x8 x y 0x6
  | .subnVxVy x y => encodeXyn 0x8 x y 0x7
  | .shlVx x y => encodeXyn 0x8 x y 0xE
  | .sneVxVy x y => encodeXyn 0x9 x y 0x0
  | .ldINnn nnn => encodeNnn 0xA nnn
  | .jpV0Addr nnn => encodeNnn 0xB nnn
  | .rndVxNn x nn => encodeXnn 0xC x nn
  | .drwVxVyN x y n => encodeXyn 0xD x y n
  | .skpVx x => encodeXnn 0xE x 0x9E
  | .sknpVx x => encodeXnn 0xE x 0xA1
  | .ldVxDT x => encodeXnn 0xF x 0x07
  | .ldVxK x => encodeXnn 0xF x 0x0A
  | .ldDTVx x => encodeXnn 0xF x 0x15
  | .ldSTVx x => encodeXnn 0xF x 0x18
  | .addIVx x => encodeXnn 0xF x 0x1E
  | .ldFVx x => encodeXnn 0xF x 0x29
  | .ldBVx x => encodeXnn 0xF x 0x33
  | .ldMemIVx x => encodeXnn 0xF x 0x55
  | .ldVxMemI x => encodeXnn 0xF x 0x65

/-- The bytes of an instruction in memory order (R45). -/
def encodeBytes (i : Instr) : List Byte := bytesOfWord (encode i)

/-- The (mask, match) pair of an instruction's row in R49. -/
def rowOf : Instr → Word × Word
  | .cls => (0xFFFF, 0x00E0)
  | .ret => (0xFFFF, 0x00EE)
  | .jpAddr _ => (0xF000, 0x1000)
  | .callAddr _ => (0xF000, 0x2000)
  | .seVxNn _ _ => (0xF000, 0x3000)
  | .sneVxNn _ _ => (0xF000, 0x4000)
  | .seVxVy _ _ => (0xF00F, 0x5000)
  | .ldVxNn _ _ => (0xF000, 0x6000)
  | .addVxNn _ _ => (0xF000, 0x7000)
  | .ldVxVy _ _ => (0xF00F, 0x8000)
  | .orVxVy _ _ => (0xF00F, 0x8001)
  | .andVxVy _ _ => (0xF00F, 0x8002)
  | .xorVxVy _ _ => (0xF00F, 0x8003)
  | .addVxVy _ _ => (0xF00F, 0x8004)
  | .subVxVy _ _ => (0xF00F, 0x8005)
  | .shrVx _ _ => (0xF00F, 0x8006)
  | .subnVxVy _ _ => (0xF00F, 0x8007)
  | .shlVx _ _ => (0xF00F, 0x800E)
  | .sneVxVy _ _ => (0xF00F, 0x9000)
  | .ldINnn _ => (0xF000, 0xA000)
  | .jpV0Addr _ => (0xF000, 0xB000)
  | .rndVxNn _ _ => (0xF000, 0xC000)
  | .drwVxVyN _ _ _ => (0xF000, 0xD000)
  | .skpVx _ => (0xF0FF, 0xE09E)
  | .sknpVx _ => (0xF0FF, 0xE0A1)
  | .ldVxDT _ => (0xF0FF, 0xF007)
  | .ldVxK _ => (0xF0FF, 0xF00A)
  | .ldDTVx _ => (0xF0FF, 0xF015)
  | .ldSTVx _ => (0xF0FF, 0xF018)
  | .addIVx _ => (0xF0FF, 0xF01E)
  | .ldFVx _ => (0xF0FF, 0xF029)
  | .ldBVx _ => (0xF0FF, 0xF033)
  | .ldMemIVx _ => (0xF0FF, 0xF055)
  | .ldVxMemI _ => (0xF0FF, 0xF065)

/-- The 34 (mask, match) pairs of R49 in the table's order. -/
def opcodeRows : List (Word × Word) :=
  [(0xFFFF, 0x00E0), (0xFFFF, 0x00EE), (0xF000, 0x1000), (0xF000, 0x2000), (0xF000, 0x3000), (0xF000, 0x4000)] ++
  [(0xF00F, 0x5000), (0xF000, 0x6000), (0xF000, 0x7000)] ++
  [(0xF00F, 0x8000), (0xF00F, 0x8001), (0xF00F, 0x8002), (0xF00F, 0x8003), (0xF00F, 0x8004)] ++
  [(0xF00F, 0x8005), (0xF00F, 0x8006), (0xF00F, 0x8007), (0xF00F, 0x800E), (0xF00F, 0x9000)] ++
  [(0xF000, 0xA000), (0xF000, 0xB000), (0xF000, 0xC000), (0xF000, 0xD000), (0xF0FF, 0xE09E), (0xF0FF, 0xE0A1)] ++
  [(0xF0FF, 0xF007), (0xF0FF, 0xF00A), (0xF0FF, 0xF015), (0xF0FF, 0xF018), (0xF0FF, 0xF01E)] ++
  [(0xF0FF, 0xF029), (0xF0FF, 0xF033), (0xF0FF, 0xF055), (0xF0FF, 0xF065)]

/-- A word is an instance of a row exactly when `(w and mask) = match` (R47). -/
def matchesRow (w : Word) (row : Word × Word) : Bool := (w &&& row.1) == row.2

/-- The instruction word of the opcode table's numbering (bit 0 the least significant bit of the word; the bits from `nbits`
up are 0); none for a row longer than the machine's one length, two bytes (R45). -/
def tableWord (nbits w : Nat) : Option Word :=
  if nbits ≤ 16 then some (BitVec.ofNat 16 (w % 2 ^ nbits)) else none

/-- The instruction the decoder reads from the bytes of a table word, laid out in memory order (DESIGN CHOICE, log entry 12). -/
def decodeTableWord (nbits w : Nat) : Option Instr :=
  match tableWord nbits w with
  | none => none
  | some tw =>
    match decodeBytes (bytesOfWord tw) with
    | .ok (i, _) => some i
    | .error _ => none

end Sys2Proof
end

