-- ==== Sys2Proof/Machine/State.lean ====
section
/-! DEFINITION. The machine's state (`10_state.md`), its reset value (R24), and the reasons a cycle or a host move can name. -/

namespace Sys2Proof.Machine

/-- The contents of memory M (R20): the cells whose value differs from the contents right after a reset without a ROM, by
strictly rising address; what an unlisted cell reads as is `unlistedByte`. -/
abbrev Memory := List Host.Cell

/-- The general registers V0 to VF (R10). -/
abbrev Regs := Vector Byte 16

/-- The framebuffer as rows of pixels: `FB[r][c]` (R19). -/
abbrev Framebuffer := Vector (Vector Bool 64) 32

/-- The three fatal conditions (R110, `60_exceptions.md`). A cycle that raises one LATCHES it in `State.fault` (R118) and is
a next state of the machine; no step answers `Host.Outcome.fault` (log entry 3). All three are safe: a latched machine
changes nothing until reset (R119). -/
inductive Fault where
  /-- Raised by the fetch, `DRW`, `LD [I],Vx`, `LD Vx,[I]` and `LD B,Vx` when an address they would touch is above 0xFFF;
  `a` is the lowest such address (R111, R112). Safe. -/
  | outOfBounds (a : Word)
  /-- Raised by `CALL addr` with SP = 16 (R113). Safe. -/
  | stackOverflow
  /-- Raised by `RET` with SP = 0 (R114). Safe. -/
  | stackUnderflow
  deriving DecidableEq, Repr

/-- What is refused. No instruction and no step is: each has the effect the spec gives it. -/
inductive Refusal where
  /-- An instruction that has no meaning yet, by its mnemonic: raised by no arm of `exec`. Safe. -/
  | notModelled (mnemonic : String)
  /-- The host move `RESET(rom)` with a ROM of more than ROM_MAX bytes, which the spec refuses (R126). Safe. -/
  | romTooLarge
  deriving DecidableEq, Repr

/-- The complete state of the machine (`10_state.md`, opening tuple; R22), and the model's own counter `draws`. -/
structure State where
  /-- V0 to VF (R10); V[15] is VF, the flag (R11). -/
  v : Regs
  /-- The program counter (R13). -/
  pc : Word
  /-- The index register I (R14). -/
  idx : Word
  /-- The return-address stack S[0] to S[15] (R15). -/
  stack : Vector Word 16
  /-- The stack pointer, 0 to 16: the number of entries in use (R15). -/
  sp : Fin 17
  /-- The delay timer DT (R16). -/
  dt : Byte
  /-- The sound timer ST (R17). -/
  st : Byte
  /-- The keypad K[0] to K[15], written by the host only (R18). -/
  keys : Vector Bool 16
  /-- The framebuffer FB (R19). -/
  fb : Framebuffer
  /-- Memory M (R20). -/
  mem : Memory
  /-- The fault latch FAULT (R21). -/
  fault : Option Fault
  /-- The model's own field (log entry 2): how many random bytes `RND` has consumed, the argument of `Config.randomByte`
  in a cycle to which the host hands none. -/
  draws : Nat
  deriving DecidableEq, Repr

/-- The state right after `RESET` with the empty ROM (R24, R130). Memory lists nothing: an unlisted cell reads as R24 says.
`draws` is 0 by DESIGN CHOICE (log entry 2). -/
def State.reset : State where
  v := Vector.replicate 16 0
  pc := BitVec.ofNat 16 Config.progBase
  idx := 0
  stack := Vector.replicate 16 0
  sp := 0
  dt := 0
  st := 0
  keys := Vector.replicate 16 false
  fb := Vector.replicate 32 (Vector.replicate 64 false)
  mem := []
  fault := none
  draws := 0

end Sys2Proof.Machine
end

