-- ==== Sys2Proof/Machine/Memory.lean ====
section
/-! DEFINITION. Memory (`20_memory.md`): what a cell reads as, reading and writing one byte and a run of bytes, and the
canonical form. Bounds are checked before these operations are used (`Machine/Ops.lean`, R34, R38). -/

namespace Sys2Proof.Machine

/-- FONT_TABLE (R32): 16 glyphs of 5 bytes. UNVERIFIED (log entry 9): the bytes are the spec's decision D4; no instruction
depends on them. -/
def fontTable : List Byte :=
  [0xF0, 0x90, 0x90, 0x90, 0xF0] ++ [0x20, 0x60, 0x20, 0x20, 0x70] ++
  [0xF0, 0x10, 0xF0, 0x80, 0xF0] ++ [0xF0, 0x10, 0xF0, 0x10, 0xF0] ++
  [0x90, 0x90, 0xF0, 0x10, 0x10] ++ [0xF0, 0x80, 0xF0, 0x10, 0xF0] ++
  [0xF0, 0x80, 0xF0, 0x90, 0xF0] ++ [0xF0, 0x10, 0x20, 0x40, 0x40] ++
  [0xF0, 0x90, 0xF0, 0x90, 0xF0] ++ [0xF0, 0x90, 0xF0, 0x10, 0xF0] ++
  [0xF0, 0x90, 0xF0, 0x90, 0x90] ++ [0xE0, 0x90, 0xE0, 0x90, 0xE0] ++
  [0xF0, 0x80, 0x80, 0x80, 0xF0] ++ [0xE0, 0x90, 0x90, 0x90, 0xE0] ++
  [0xF0, 0x80, 0xF0, 0x80, 0xF0] ++ [0xF0, 0x80, 0xF0, 0x80, 0x80]

/-- What a cell that memory does not list reads as: its contents after a reset with the empty ROM, the font table at 0x050 to
0x09F and zero elsewhere (R24, R31). -/
def unlistedByte (a : Nat) : Byte :=
  if Config.fontBase ≤ a ∧ a < Config.fontBase + Config.fontSize then fontTable.getD (a - Config.fontBase) 0 else 0

/-- `M[a]` (R20). -/
def readCell : Memory → Nat → Byte
  | [], a => unlistedByte a
  | (k, b) :: m, a => if k = a then b else readCell m a

/-- `M[a] <- b` (R20), keeping the canonical form: a cell that holds what it reads as unlisted is not listed. -/
def writeCell : Memory → Nat → Byte → Memory
  | [], a, b => if b = unlistedByte a then [] else [(a, b)]
  | (k, c) :: m, a, b =>
    if a < k then (if b = unlistedByte a then (k, c) :: m else (a, b) :: (k, c) :: m)
    else if a = k then (if b = unlistedByte a then m else (a, b) :: m)
    else (k, c) :: writeCell m a b

/-- `count` bytes from address `a` in rising order (R37, R38). -/
def readCells (m : Memory) (a : Nat) : Nat → List Byte
  | 0 => []
  | count + 1 => readCell m a :: readCells m (a + 1) count

/-- The bytes stored from address `a` on, in rising order (R37, R38). -/
def writeCells (m : Memory) (a : Nat) : List Byte → Memory
  | [] => m
  | b :: bs => writeCells (writeCell m a b) (a + 1) bs

/-- The canonical form: addresses strictly rising from `low`, below 4096, and no entry equal to what its cell reads as
unlisted. -/
def Memory.wfFrom (low : Nat) : Memory → Bool
  | [] => true
  | (k, b) :: m => decide (low ≤ k) && decide (k < Config.memSize) && decide (b ≠ unlistedByte k) && Memory.wfFrom (k + 1) m

/-- The canonical form of memory. -/
def Memory.wf (m : Memory) : Bool := Memory.wfFrom 0 m

end Sys2Proof.Machine
end

