-- ==== Sys2Proof/Machine/Operands.lean ====
section
/-! DEFINITION. The operand forms (R8, R48): register operands, zero-extended immediates, and the values the instructions
compute from their operands before they write anything (R12). -/

namespace Sys2Proof.Machine

/-- `V[x]` (R7, R10). -/
def readReg (s : State) (x : RegName) : Byte := s.v[x.toNat]'x.isLt

/-- `zext_16(nnn)` (R48). -/
def zextAddr (nnn : Addr) : Word := nnn.setWidth 16

/-- `zext_16(V[x])` (R6, R92). -/
def zextByte (b : Byte) : Word := b.setWidth 16

/-- The register number of VF (R11). -/
abbrev vf : RegName := 0xF

/-- The register of `JP V0,addr`, whatever the word's bits 11:8 (R52, R73). -/
abbrev v0 : RegName := 0x0

/-- The target of `JP V0,addr`: a 16-bit sum, not reduced modulo 4096 (R73). -/
def offsetTarget (nnn : Addr) (offset : Byte) : Word := zextAddr nnn + zextByte offset

/-- The address of the glyph of digit `d`, with no mask of `d` (R93). -/
def glyphAddress (d : Byte) : Word := BitVec.ofNat 16 (Config.fontBase + Config.fontGlyphBytes * d.toNat)

/-- The three decimal digits of a byte, hundreds first (R105). -/
def decimalDigits (b : Byte) : List Byte :=
  [BitVec.ofNat 8 (b.toNat / 100), BitVec.ofNat 8 (b.toNat / 10 % 10), BitVec.ofNat 8 (b.toNat % 10)]

/-- `K[V[x] mod 16]` (R97). -/
def keyNamed (s : State) (b : Byte) : Bool := s.keys[b.toNat % 16]'(Nat.mod_lt _ (by decide))

/-- The key scan of `LD Vx,K`: in ascending order, a later pressed key overwriting an earlier one, so the highest pressed key
(R99, `90_conflicts.md` C2). -/
def highestKey (keys : Vector Bool 16) : Option (Fin 16) :=
  (List.finRange 16).foldl (fun found k => if keys[k] then some k else found) none

/-- The screen row of a row number, with vertical wraparound (R96). -/
def screenRow (r : Nat) : Fin 32 := ⟨r % 32, Nat.mod_lt _ (by decide)⟩

/-- The screen column of a column number, with horizontal wraparound (R96). -/
def screenCol (c : Nat) : Fin 64 := ⟨c % 64, Nat.mod_lt _ (by decide)⟩

/-- Bit `k` of a sprite byte counted from the most significant, the leftmost pixel (R96). -/
def spriteBit (b : Byte) (k : Nat) : Bool := b.getLsbD (7 - k)

end Sys2Proof.Machine
end

