-- ==== Sys2Proof/Machine/Flags.lean ====
section
/-! DEFINITION. The flag computations (R11, `10_state.md`): what the flag-writing instructions report in VF. -/

namespace Sys2Proof.Machine

/-- A flag as VF holds it: exactly 0x00 or 0x01 (R11). -/
def flagByte (f : Bool) : Byte := if f then 0x01 else 0x00

/-- `ADD Vx,Vy`: the sum exceeds 255 (R86). -/
def carryFlag (a b : Byte) : Bool := decide (a.toNat + b.toNat > 255)

/-- `SUB Vx,Vy` with `a` = V[x], `b` = V[y]: strictly greater, so 0 when equal (R87, `90_conflicts.md` C3). -/
def greaterFlag (a b : Byte) : Bool := decide (a.toNat > b.toNat)

/-- `SUBN Vx,Vy` with `a` = V[x], `b` = V[y]: strictly less, so 0 when equal (R89, `90_conflicts.md` C3). -/
def lessFlag (a b : Byte) : Bool := decide (a.toNat < b.toNat)

/-- `SHR Vx`: the bit shifted out on the right (R88). -/
def lowBitFlag (a : Byte) : Bool := a.getLsbD 0

/-- `SHL Vx`: the bit shifted out on the left (R90). -/
def highBitFlag (a : Byte) : Bool := a.getLsbD 7

end Sys2Proof.Machine
end

