-- ==== Sys2Proof/Machine/Ops.lean ====
section
/-! DEFINITION. The shared operations: writing registers, moving pc, the stack, bounds-checked memory access, raising a fatal
condition, and the frame of a cycle around an instruction (`40_cycle_engine.md`, `60_exceptions.md`). -/

namespace Sys2Proof.Machine

/-! ## Registers, pc, timers -/

/-- `V[x] <- b` (R7). -/
def writeReg (x : RegName) (b : Byte) (s : State) : State := { s with v := s.v.set x.toNat b x.isLt }

/-- `V[0xF] <- f` (R11). -/
def writeFlag (f : Bool) (s : State) : State := writeReg vf (flagByte f) s

/-- The result to V[x], then the flag to VF: the flag is the last write, so with x = 15 the flag remains (R12). -/
def writeResultAndFlag (x : RegName) (result : Byte) (f : Bool) (s : State) : State := writeFlag f (writeReg x result s)

/-- `I <- a` (R14). -/
def writeIdx (a : Word) (s : State) : State := { s with idx := a }

/-- `pc <- a` (R7). -/
def jumpTo (a : Word) (s : State) : State := { s with pc := a }

/-- `pc <- pc + 2`: the advance before dispatch (R62), and the further 2 of a taken skip (`42_conditional_skip.md`). -/
def advancePc (s : State) : State := jumpTo (s.pc + 2) s

/-- `pc <- pc - 2`: the rewind of a key wait (R99). -/
def rewindPc (s : State) : State := jumpTo (s.pc - 2) s

/-- Skip the next instruction word when the condition holds (R75 to R78, R97, R98). -/
def skipIf (condition : Bool) (s : State) : State := if condition then advancePc s else s

/-- A timer's step: 1 less while above 0 (R65). -/
def countDown (t : Byte) : Byte := if t.toNat > 0 then t - 1 else t

/-- The timer step of a cycle (R65). -/
def timerStep (s : State) : State := { s with dt := countDown s.dt, st := countDown s.st }

/-! ## Fatal conditions -/

/-- The numeric code of a fatal condition, a label only (R110). -/
def faultCode : Fault → Nat
  | .outOfBounds _ => 1
  | .stackOverflow => 2
  | .stackUnderflow => 3

/-- Raising a fatal condition (R118): from the state in which the cycle began, everything stays as it was and FAULT records
the condition. There is no return from it but reset (R119). -/
def raise (c : Fault) (s : State) : Host.Outcome State Fault Refusal := .next { s with fault := some c }

/-- A cycle invoked while FAULT is not None changes nothing at all (R119). -/
def stuck (s : State) : Host.Outcome State Fault Refusal := .next s

/-! ## The cycle around an instruction -/

/-- A cycle after its fetch and decode, from the state in which the cycle began (R60): advance pc, run the instruction, step the
timers; or, where the instruction raises a condition, that state with the condition latched. -/
def cycle (body : State → Except Fault State) (s : State) : Host.Outcome State Fault Refusal :=
  match body (advancePc s) with
  | .ok t => .next (timerStep t)
  | .error c => raise c s

/-- The cycle of an instruction that can raise nothing. -/
def complete (effect : State → State) (s : State) : Host.Outcome State Fault Refusal := cycle (fun t => .ok (effect t)) s

/-! ## Bounds and memory -/

/-- The bounds check of `count` bytes from `base`, made before any effect: the lowest address above 0xFFF, if there is one.
Addresses are natural numbers and do not wrap; no bytes, no check (R34, R38, R112). -/
def boundsFault (base count : Nat) : Option Fault :=
  if count = 0 ∨ base + count ≤ Config.memSize then none
  else some (.outOfBounds (BitVec.ofNat 16 (max base Config.memSize)))

/-- An effect on `count` bytes from I, performed whole or not at all (R38). -/
def onBytesAtI (count : Nat) (effect : State → State) (s : State) : Except Fault State :=
  match boundsFault s.idx.toNat count with
  | some c => .error c
  | none => .ok (effect s)

/-- `MemRead(a, 1)` (R34). -/
def memRead (m : Memory) (a : Nat) : Except Fault Byte :=
  if a ≥ Config.memSize then .error (.outOfBounds (BitVec.ofNat 16 a)) else .ok (readCell m a)

/-- The instruction fetch `MemRead(pc, 2)`, big-endian, at any parity of pc (R35, R36, R61). -/
def fetchWord (s : State) : Except Fault Word :=
  match memRead s.mem s.pc.toNat with
  | .error c => .error c
  | .ok hi =>
    match memRead s.mem (s.pc.toNat + 1) with
    | .error c => .error c
    | .ok lo => .ok (wordOfBytes hi lo)

/-- Bytes stored from I on (R103, R105). -/
def storeAtI (bytes : List Byte) (s : State) : State := { s with mem := writeCells s.mem s.idx.toNat bytes }

/-- The registers V[0] to V[x], in order (R103). -/
def regsUpTo (x : RegName) (s : State) : List Byte := s.v.toList.take (x.toNat + 1)

/-- The registers with V[0] to V[x] read from memory at I on, the ones above V[x] as they are (R104). -/
def regsFromMemory (x : RegName) (s : State) : Regs :=
  Vector.ofFn fun i : Fin 16 => if i.val ≤ x.toNat then readCell s.mem (s.idx.toNat + i.val) else s.v[i]

/-- V[i] <- M[I + i] for i = 0 to x (R104). -/
def loadRegsAtI (x : RegName) (s : State) : State := { s with v := regsFromMemory x s }

/-! ## The stack -/

/-- `S[SP] <- a; SP <- SP + 1`, or StackOverflow at SP = 16 (R15, R113). -/
def push (a : Word) (s : State) : Except Fault State :=
  if h : s.sp.val < Config.stackDepth then
    .ok { s with stack := s.stack.set s.sp.val a h, sp := ⟨s.sp.val + 1, Nat.succ_lt_succ h⟩ }
  else .error .stackOverflow

/-- `SP <- SP - 1; pc <- S[SP]`, or StackUnderflow at SP = 0; the popped entry is not cleared (R15, R114). -/
def popPc (s : State) : Except Fault State :=
  match s.sp with
  | ⟨0, _⟩ => .error .stackUnderflow
  | ⟨j + 1, h⟩ => .ok { s with sp := ⟨j, Nat.lt_of_succ_lt h⟩, pc := s.stack[j]'(Nat.lt_of_succ_lt_succ h) }

/-! ## Placing an instruction -/

/-- The state with an instruction word stored where the next cycle fetches (DESIGN CHOICE, log entry 12): the latch is None so
that the cycle runs, and a pc that nothing can be fetched from is set to PROG_BASE. -/
def placeWord (w : Word) (s : State) : State :=
  let pc := if s.pc.toNat + 2 ≤ Config.memSize then s.pc else BitVec.ofNat 16 Config.progBase
  { s with fault := none, pc := pc, mem := writeCells s.mem pc.toNat (bytesOfWord w) }

end Sys2Proof.Machine
end

