-- ==== Sys2Proof/Machine/Unknown.lean ====
section
/-! DEFINITION. Unknown opcodes (R51, R64): a word that is no instruction is a no-op. -/

namespace Sys2Proof.Machine

/-- The cycle of an unknown opcode: pc0 + 2 and the timer step, nothing else (R64). -/
def execUnknown (s : State) : Host.Outcome State Fault Refusal := complete id s

end Sys2Proof.Machine
end

