-- ==== Sys2Proof/Machine/Cycle.lean ====
section
/-! DEFINITION. The cycle's fixed part around the execution of an instruction (R60, `40_cycle_engine.md`): the check of FAULT,
the fetch, the decoding. What executes an instruction is a parameter, so that the cycle is said once for both sources of the
random byte: the host's `CYCLE(rand)` and the free value of `step`. -/

namespace Sys2Proof.Machine

/-- What a cycle does with its fetched word: the instruction it decodes to, or the no-op of an unknown opcode (R63, R64). -/
def runWord (run : Instr → State → Host.Outcome State Fault Refusal) (w : Word) (s : State) :
    Host.Outcome State Fault Refusal :=
  match decodeWord w with
  | some i => run i s
  | none => execUnknown s

/-- `Cycle` (R60): nothing while FAULT is set (R119); else fetch, which may raise OutOfBounds (R61, R111), then decode and run. -/
def cycleBy (run : Instr → State → Host.Outcome State Fault Refusal) (s : State) : Host.Outcome State Fault Refusal :=
  match s.fault with
  | some _ => stuck s
  | none =>
    match fetchWord s with
    | .error c => raise c s
    | .ok w => runWord run w s

end Sys2Proof.Machine
end

