-- ==== Sys2Proof/Machine/ControlFlow.lean ====
section
/-! DEFINITION. Control flow (`41_control_flow.md`, R70 to R73). In every body pc is already pc0 + 2 (R62). -/

namespace Sys2Proof.Machine

/-- `RET`: `SP <- SP - 1; pc <- S[SP]`; StackUnderflow at SP = 0 (R72). -/
def execRet (s : State) : Host.Outcome State Fault Refusal := cycle popPc s

/-- `JP addr`: `pc <- zext_16(nnn)` (R70). -/
def execJpAddr (nnn : Addr) (s : State) : Host.Outcome State Fault Refusal := complete (jumpTo (zextAddr nnn)) s

/-- `CALL addr`: push the advanced pc, then `pc <- zext_16(nnn)`; StackOverflow at SP = 16 (R71). -/
def execCallAddr (nnn : Addr) (s : State) : Host.Outcome State Fault Refusal :=
  cycle (fun t => (push t.pc t).map (jumpTo (zextAddr nnn))) s

/-- `JP V0,addr`: `pc <- zext_16(nnn) + zext_16(V[0])` (R73). -/
def execJpV0Addr (nnn : Addr) (s : State) : Host.Outcome State Fault Refusal :=
  complete (fun t => jumpTo (offsetTarget nnn (readReg t v0)) t) s

end Sys2Proof.Machine
end

