-- ==== Sys2Proof/Machine/Display.lean ====
section
/-! DEFINITION. The display (`46_display.md`, R95, R96). -/

namespace Sys2Proof.Machine

/-- `FB[r][c]` (R19). -/
def pixel (fb : Framebuffer) (r : Fin 32) (c : Fin 64) : Bool := fb[r][c]

/-- `FB[r][c] <- p` (R19). -/
def setPixel (fb : Framebuffer) (r : Fin 32) (c : Fin 64) (p : Bool) : Framebuffer := fb.set r (fb[r].set c p)

/-- One sprite bit at one pixel: a set bit on a set pixel is a collision, and the bit is XORed into the pixel (R96). The pair is
the framebuffer and the collision so far. -/
def drawBit (r : Fin 32) (c : Fin 64) (bit : Bool) (acc : Framebuffer × Bool) : Framebuffer × Bool :=
  (setPixel acc.1 r c (pixel acc.1 r c ^^ bit), acc.2 || (bit && pixel acc.1 r c))

/-- One sprite byte: its 8 bits from the most significant, in the columns from `x0`, wrapping (R96). -/
def drawByte (r : Fin 32) (x0 : Nat) (b : Byte) (acc : Framebuffer × Bool) : Framebuffer × Bool :=
  (List.range 8).foldl (fun acc k => drawBit r (screenCol (x0 + k)) (spriteBit b k) acc) acc

/-- The sprite bytes, one in each row from `y0`, wrapping (R96). -/
def drawBytes (x0 y0 : Nat) : List Byte → Framebuffer × Bool → Framebuffer × Bool
  | [], acc => acc
  | b :: bs, acc => drawBytes x0 (y0 + 1) bs (drawByte (screenRow y0) x0 b acc)

/-- Draw the `n` bytes at I at column `V[x] mod 64` and row `V[y] mod 32`, then VF the collision (R96, R12). -/
def drawSprite (x y : RegName) (n : Nibble) (s : State) : State :=
  let drawn := drawBytes ((readReg s x).toNat % 64) ((readReg s y).toNat % 32) (readCells s.mem s.idx.toNat n.toNat) (s.fb, false)
  writeFlag drawn.2 { s with fb := drawn.1 }

/-- `CLS`: every pixel 0 (R95). -/
def execCls (s : State) : Host.Outcome State Fault Refusal :=
  complete (fun t => { t with fb := Vector.replicate 32 (Vector.replicate 64 false) }) s

/-- `DRW Vx,Vy,n`: OutOfBounds before any effect if a sprite byte lies above 0xFFF (R96, R38). -/
def execDrwVxVyN (x y : RegName) (n : Nibble) (s : State) : Host.Outcome State Fault Refusal :=
  cycle (onBytesAtI n.toNat (drawSprite x y n)) s

end Sys2Proof.Machine
end

