-- ==== Sys2Proof/Machine/Index.lean ====
section
/-! DEFINITION. The index register (`44_index.md`, R91 to R93): no bounds check here, no flag. -/

namespace Sys2Proof.Machine

/-- `LD I,nnn`: `I <- zext_16(nnn)` (R91). -/
def execLdINnn (nnn : Addr) (s : State) : Host.Outcome State Fault Refusal := complete (writeIdx (zextAddr nnn)) s

/-- `ADD I,Vx`: `I <- (I + zext_16(V[x])) mod 65536`, no flag (R92). -/
def execAddIVx (x : RegName) (s : State) : Host.Outcome State Fault Refusal :=
  complete (fun t => writeIdx (t.idx + zextByte (readReg t x)) t) s

/-- `LD F,Vx`: `I <- 0x0050 + 5 * zext_16(V[x])`, no mask (R93). -/
def execLdFVx (x : RegName) (s : State) : Host.Outcome State Fault Refusal :=
  complete (fun t => writeIdx (glyphAddress (readReg t x)) t) s

end Sys2Proof.Machine
end

