-- ==== Sys2Proof/Machine/Keypad.lean ====
section
/-! DEFINITION. The keypad instructions (`47_keypad.md`, R97 to R99). -/

namespace Sys2Proof.Machine

/-- `SKP Vx`: skip if `K[V[x] mod 16]` (R97). -/
def execSkpVx (x : RegName) (s : State) : Host.Outcome State Fault Refusal :=
  complete (fun t => skipIf (keyNamed t (readReg t x)) t) s

/-- `SKNP Vx`: skip if not `K[V[x] mod 16]` (R98). -/
def execSknpVx (x : RegName) (s : State) : Host.Outcome State Fault Refusal :=
  complete (fun t => skipIf (!keyNamed t (readReg t x)) t) s

/-- Load the highest pressed key, or rewind pc when none is pressed (R99). -/
def loadKey (x : RegName) (s : State) : State :=
  match highestKey s.keys with
  | some k => writeReg x (BitVec.ofNat 8 k.val) s
  | none => rewindPc s

/-- `LD Vx,K`: the key wait, a full cycle in either case (R99). -/
def execLdVxK (x : RegName) (s : State) : Host.Outcome State Fault Refusal := complete (loadKey x) s

end Sys2Proof.Machine
end

