-- ==== Sys2Proof/Machine/MemoryBlock.lean ====
section
/-! DEFINITION. Memory block transfer and BCD (`49_memory_block.md`, R103 to R105). I is never changed, and every address is
checked before anything is written (R38). -/

namespace Sys2Proof.Machine

/-- `LD [I],Vx`: V[0] to V[x] to memory from I on (R103). -/
def execLdMemIVx (x : RegName) (s : State) : Host.Outcome State Fault Refusal :=
  cycle (onBytesAtI (x.toNat + 1) (fun t => storeAtI (regsUpTo x t) t)) s

/-- `LD Vx,[I]`: V[0] to V[x] from memory from I on (R104). -/
def execLdVxMemI (x : RegName) (s : State) : Host.Outcome State Fault Refusal :=
  cycle (onBytesAtI (x.toNat + 1) (loadRegsAtI x)) s

/-- `LD B,Vx`: the three decimal digits of V[x] to I, I + 1, I + 2 (R105). -/
def execLdBVx (x : RegName) (s : State) : Host.Outcome State Fault Refusal :=
  cycle (onBytesAtI 3 (fun t => storeAtI (decimalDigits (readReg t x)) t)) s

end Sys2Proof.Machine
end

