-- ==== Sys2Proof/Machine/Random.lean ====
section
/-! DEFINITION. The randomisation instruction (`45_random.md`, R94). -/

namespace Sys2Proof.Machine

/-- `V[x] <- rand and nn`, for the random byte `rand` of the cycle (R94). -/
def randomMasked (rand : Byte) (x : RegName) (nn : Byte) (s : State) : State := writeReg x (rand &&& nn) s

/-- One random byte has been consumed (log entry 2). -/
def countDraw (s : State) : State := { s with draws := s.draws + 1 }

/-- The cycle of `RND Vx,nn` with the random byte `rand` (R94). -/
def rndWith (rand : Byte) (x : RegName) (nn : Byte) (s : State) : Host.Outcome State Fault Refusal :=
  complete (fun t => countDraw (randomMasked rand x nn t)) s

/-- The random byte of a cycle to which the host hands none: the free value of this draw (R23; DESIGN CHOICE, log entries 1
and 2). -/
def freeRandom (s : State) : Byte := Config.randomByte s.draws

/-- `RND Vx,nn`: `V[x] <- rand and nn`, `rand` being the free value (R94). -/
def execRndVxNn (x : RegName) (nn : Byte) (s : State) : Host.Outcome State Fault Refusal := rndWith (freeRandom s) x nn s

end Sys2Proof.Machine
end

