-- ==== Sys2Proof/Machine/RegisterAlu.lean ====
section
/-! DEFINITION. Register load, arithmetic, logic and shift (`43_register_alu.md`, R79 to R90). Operands are read before any
write, and the flag is written last (R12). -/

namespace Sys2Proof.Machine

/-- `LD Vx,nn`: `V[x] <- nn` (R80). -/
def execLdVxNn (x : RegName) (nn : Byte) (s : State) : Host.Outcome State Fault Refusal := complete (writeReg x nn) s

/-- `ADD Vx,nn`: `V[x] <- (V[x] + nn) mod 256`, no flag (R81). -/
def execAddVxNn (x : RegName) (nn : Byte) (s : State) : Host.Outcome State Fault Refusal :=
  complete (fun t => writeReg x (readReg t x + nn) t) s

/-- `LD Vx,Vy`: `V[x] <- V[y]` (R82). -/
def execLdVxVy (x y : RegName) (s : State) : Host.Outcome State Fault Refusal :=
  complete (fun t => writeReg x (readReg t y) t) s

/-- `OR Vx,Vy`, no flag (R83). -/
def execOrVxVy (x y : RegName) (s : State) : Host.Outcome State Fault Refusal :=
  complete (fun t => writeReg x (readReg t x ||| readReg t y) t) s

/-- `AND Vx,Vy`, no flag (R84). -/
def execAndVxVy (x y : RegName) (s : State) : Host.Outcome State Fault Refusal :=
  complete (fun t => writeReg x (readReg t x &&& readReg t y) t) s

/-- `XOR Vx,Vy`, no flag (R85). -/
def execXorVxVy (x y : RegName) (s : State) : Host.Outcome State Fault Refusal :=
  complete (fun t => writeReg x (readReg t x ^^^ readReg t y) t) s

/-- `ADD Vx,Vy`: the sum modulo 256, then VF the carry (R86). -/
def execAddVxVy (x y : RegName) (s : State) : Host.Outcome State Fault Refusal :=
  complete (fun t => writeResultAndFlag x (readReg t x + readReg t y) (carryFlag (readReg t x) (readReg t y)) t) s

/-- `SUB Vx,Vy`: V[x] - V[y] modulo 256, then VF = 1 exactly when V[x] > V[y] (R87). -/
def execSubVxVy (x y : RegName) (s : State) : Host.Outcome State Fault Refusal :=
  complete (fun t => writeResultAndFlag x (readReg t x - readReg t y) (greaterFlag (readReg t x) (readReg t y)) t) s

/-- `SHR Vx`: V[x] shifted right by one, then VF the bit shifted out; `y` is ignored (R88, R52). -/
def execShrVx (x : RegName) (s : State) : Host.Outcome State Fault Refusal :=
  complete (fun t => writeResultAndFlag x (readReg t x >>> 1) (lowBitFlag (readReg t x)) t) s

/-- `SUBN Vx,Vy`: V[y] - V[x] modulo 256, then VF = 1 exactly when V[x] < V[y] (R89). -/
def execSubnVxVy (x y : RegName) (s : State) : Host.Outcome State Fault Refusal :=
  complete (fun t => writeResultAndFlag x (readReg t y - readReg t x) (lessFlag (readReg t x) (readReg t y)) t) s

/-- `SHL Vx`: V[x] shifted left by one, then VF the bit shifted out; `y` is ignored (R90, R52). -/
def execShlVx (x : RegName) (s : State) : Host.Outcome State Fault Refusal :=
  complete (fun t => writeResultAndFlag x (readReg t x <<< 1) (highBitFlag (readReg t x)) t) s

end Sys2Proof.Machine
end

