-- ==== Sys2Proof/Machine/Skip.lean ====
section
/-! DEFINITION. Conditional skips (`42_conditional_skip.md`, R75 to R78): no register is written and no flag set. -/

namespace Sys2Proof.Machine

/-- `SE Vx,nn`: skip if `V[x] = nn` (R75). -/
def execSeVxNn (x : RegName) (nn : Byte) (s : State) : Host.Outcome State Fault Refusal :=
  complete (fun t => skipIf (readReg t x == nn) t) s

/-- `SNE Vx,nn`: skip if `V[x] != nn` (R76). -/
def execSneVxNn (x : RegName) (nn : Byte) (s : State) : Host.Outcome State Fault Refusal :=
  complete (fun t => skipIf (readReg t x != nn) t) s

/-- `SE Vx,Vy`: skip if `V[x] = V[y]` (R77). -/
def execSeVxVy (x y : RegName) (s : State) : Host.Outcome State Fault Refusal :=
  complete (fun t => skipIf (readReg t x == readReg t y) t) s

/-- `SNE Vx,Vy`: skip if `V[x] != V[y]` (R78). -/
def execSneVxVy (x y : RegName) (s : State) : Host.Outcome State Fault Refusal :=
  complete (fun t => skipIf (readReg t x != readReg t y) t) s

end Sys2Proof.Machine
end

