-- ==== Sys2Proof/Machine/Timers.lean ====
section
/-! DEFINITION. The timer instructions (`48_timers.md`, R100 to R102). The timer step of the same cycle follows the read or
the write (R66). -/

namespace Sys2Proof.Machine

/-- `LD Vx,DT`: `V[x] <- DT`, as it was before this cycle's timer step (R100). -/
def execLdVxDT (x : RegName) (s : State) : Host.Outcome State Fault Refusal := complete (fun t => writeReg x t.dt t) s

/-- `LD DT,Vx`: `DT <- V[x]` (R101). -/
def execLdDTVx (x : RegName) (s : State) : Host.Outcome State Fault Refusal :=
  complete (fun t => { t with dt := readReg t x }) s

/-- `LD ST,Vx`: `ST <- V[x]` (R102). -/
def execLdSTVx (x : RegName) (s : State) : Host.Outcome State Fault Refusal :=
  complete (fun t => { t with st := readReg t x }) s

end Sys2Proof.Machine
end

