-- ==== Sys2Proof/Machine/Step.lean ====
section
/-! DEFINITION. The step: the cycle (R60, `40_cycle_engine.md`) with the free random byte; and the placing of an instruction word
where the next cycle fetches. -/

namespace Sys2Proof.Machine

/-- `Cycle(state, rand)` (R60) with the free value as `rand` (log entry 1). -/
def step (s : State) : Host.Outcome State Fault Refusal := cycleBy exec s

/-- `s` with the table word placed where `step` fetches next; it stands for the ROM load of `RESET(rom)` (log entries 5, 12). A
row longer than the machine's instructions places nothing. -/
def State.withFetchWord (s : State) (nbits w : Nat) : State :=
  match tableWord nbits w with
  | some tw => placeWord tw s
  | none => s

end Sys2Proof.Machine
end

