-- ==== Sys2Proof/Machine/HostInterface.lean ====
section
/-! DEFINITION. The host's moves and the outputs it reads (R122, `60_exceptions.md`; R130 to R132, R137,
`70_reset_and_hazards.md`). -/

namespace Sys2Proof.Machine

/-- `SETKEYS(k)`: K <- k, between cycles (R18, R122). -/
def setKeys (k : Vector Bool 16) (s : State) : State := { s with keys := k }

/-- The state `RESET(rom)` builds: byte i of the image at 0x200 + i, everything else as R24 (R130, R131). The counter of random
bytes is no state of the machine and goes on, so that the draws after a reset are fresh (log entry 2). -/
def loaded (rom : List Byte) (s : State) : State :=
  { State.reset with mem := writeCells [] Config.progBase rom, draws := s.draws }

/-- `RESET(rom)`: refused, with no state change, for an image of more than ROM_MAX bytes (R126). -/
def resetRom (rom : List Byte) (s : State) : Host.Outcome State Fault Refusal :=
  if romWellFormed rom then .next (loaded rom s) else .refused .romTooLarge

/-- The execution of an instruction in a cycle whose random byte is `rand`; only `RND` reads it (R60, R94). -/
def execWith (rand : Byte) (i : Instr) (s : State) : Host.Outcome State Fault Refusal :=
  match i with
  | .rndVxNn x nn => rndWith rand x nn s
  | other => exec other s

/-- `CYCLE(rand)`: `Cycle(state, rand)` once, with the byte the host hands in (R60, R122). -/
def cycleWith (rand : Byte) (s : State) : Host.Outcome State Fault Refusal := cycleBy (execWith rand) s

/-- A move of the host (R122): it has no other access (R43). -/
inductive HostMove where
  /-- `RESET(rom)`. -/
  | reset (rom : List Byte)
  /-- `SETKEYS(k)`. -/
  | setKeys (k : Vector Bool 16)
  /-- `CYCLE(rand)`. -/
  | cycle (rand : Byte)
  deriving DecidableEq, Repr

/-- The machine's answer to a host move. -/
def hostMove (move : HostMove) (s : State) : Host.Outcome State Fault Refusal :=
  match move with
  | .reset rom => resetRom rom s
  | .setKeys k => .next (setKeys k s)
  | .cycle rand => cycleWith rand s

/-- The state after a host move: a refused move leaves the state as it was (R126). -/
def afterMove (move : HostMove) (s : State) : State :=
  match hostMove move s with
  | .next t => t
  | .fault _ => s
  | .refused _ => s

/-- A run: the state after a sequence of host moves (R137). -/
def hostRun (moves : List HostMove) (s : State) : State := moves.foldl (fun s move => afterMove move s) s

/-- The output SOUND: `ST != 0` (R17, R122). -/
def sound (s : State) : Bool := s.st != 0

/-- The output FB, row `r` packed into 64 bits: bit c is `FB[r][c]`, bit 0 the least significant (R19). -/
def fbRow (s : State) (r : Fin 32) : BitVec 64 := BitVec.ofFnLE fun c => pixel s.fb r c

end Sys2Proof.Machine
end

