-- ==== Sys2Proof/Safety.lean ====
section
/-! DEFINITION. The terms claims are stated in: a running machine, its next instruction word, one byte of memory, the timer
step, the fatal condition a cycle raises, and the invariant of every run. -/

namespace Sys2Proof.Machine

/-- The machine is running: FAULT is None (R21). -/
def Running (s : State) : Prop := s.fault = none

/-- Both bytes of the next instruction lie in memory (R61). -/
def Fetchable (s : State) : Prop := s.pc.toNat ≤ 0xFFE

/-- `M[a]` in a state (R20). -/
def memByte (s : State) (a : Nat) : Byte := readCell s.mem a

/-- The word at pc, big-endian (R45). -/
def nextWord (s : State) : Word := wordOfBytes (memByte s s.pc.toNat) (memByte s (s.pc.toNat + 1))

/-- Both timers took exactly one step: 1 less, and never below 0 (R65). -/
def TimersStepped (s t : State) : Prop := t.dt.toNat = s.dt.toNat - 1 ∧ t.st.toNat = s.st.toNat - 1

/-- `OutOfBounds` of `count` bytes from address `base`, as R112 states it. -/
def dataFault (base count : Nat) : Option Fault :=
  if 0 < count ∧ 0xFFF < base + (count - 1) then some (.outOfBounds (BitVec.ofNat 16 (max base 0x1000))) else none

/-- What a cell holds after `bytes` have been stored from I on (R42): the stored byte, or, outside the stored range, what it held. -/
def byteAfterStore (bytes : List Byte) (s : State) (a : Nat) : Byte :=
  if s.idx.toNat ≤ a ∧ a < s.idx.toNat + bytes.length then bytes.getD (a - s.idx.toNat) 0 else memByte s a

/-- How many bytes from I an instruction touches: the four memory instructions only (R37, R112). -/
def dataCount : Instr → Option Nat
  | .drwVxVyN _ _ n => some n.toNat
  | .ldMemIVx x | .ldVxMemI x => some (x.toNat + 1)
  | .ldBVx _ => some 3
  | _ => none

/-- The fatal condition an instruction raises in a state, by the table of R110. -/
def instrFault (i : Instr) (s : State) : Option Fault :=
  match i with
  | .callAddr _ => if s.sp.val = 16 then some .stackOverflow else none
  | .ret => if s.sp.val = 0 then some .stackUnderflow else none
  | .drwVxVyN _ _ n => dataFault s.idx.toNat n.toNat
  | .ldMemIVx x => dataFault s.idx.toNat (x.toNat + 1)
  | .ldVxMemI x => dataFault s.idx.toNat (x.toNat + 1)
  | .ldBVx _ => dataFault s.idx.toNat 3
  | _ => none

/-- The fatal condition the next cycle of a running machine raises, by R110 and R111. -/
def nextFault (s : State) : Option Fault :=
  if 0xFFE < s.pc.toNat then some (.outOfBounds (if s.pc = 0xFFF then 0x1000 else s.pc))
  else
    match decodeWord (nextWord s) with
    | some i => instrFault i s
    | none => none

/-- The sprite's bit at screen position (r, c), 0 where the sprite does not reach: with `dr` rows and `dc` columns from its start
to the position, wrapping at 32 and 64, bit `7 - dc` of the byte at I + `dr` (R96). -/
def spriteAt (s : State) (x y : RegName) (n : Nibble) (r : Fin 32) (c : Fin 64) : Bool :=
  let dr := (r.val + 32 - (readReg s y).toNat % 32) % 32
  let dc := (c.val + 64 - (readReg s x).toNat % 64) % 64
  decide (dr < n.toNat ∧ dc < 8) && (memByte s (s.idx.toNat + dr)).getLsbD (7 - dc)

/-- The instruction reads the keypad (R18). -/
def readsKeys : Instr → Bool
  | .skpVx _ | .sknpVx _ | .ldVxK _ => true
  | _ => false

/-- The instruction reads the random byte (R94). -/
def readsRandom : Instr → Bool
  | .rndVxNn _ _ => true
  | _ => false

/-- An outcome with a change made to its next state. -/
def mapNext (f : State → State) : Host.Outcome State Fault Refusal → Host.Outcome State Fault Refusal
  | .next t => .next (f t)
  | .fault r => .fault r
  | .refused r => .refused r

/-- What every state of a run satisfies: memory in its canonical form, pc at most 0x10FE and every stack entry at most 0x1000
(R13), and a latched address outside memory (R21). -/
structure Inv (s : State) : Prop where
  mem_wf : Memory.wf s.mem = true
  pc_le : s.pc.toNat ≤ 0x10FE
  stack_le : ∀ (j : Nat) (h : j < 16), (s.stack[j]'h).toNat ≤ 0x1000
  fault_addr : ∀ a : Word, s.fault = some (.outOfBounds a) → 0x1000 ≤ a.toNat

end Sys2Proof.Machine
end

