-- ==== Sys2Proof/Certificates/Slice0/Obligations.lean ====
section
/-! DEFINITION. The statements about the machine, each with the rule of the spec it formalises. In a statement about an
instruction, an equation `t = { s with … }` is the frame: everything it does not name is as before. -/

open Sys2Proof Sys2Proof.Machine

/-! ## Encoding and decoding -/

/-- R45, R47, R49: the decoder reads back every assembled instruction, from its word and from its bytes. -/
def Obligations.DecodeInvertsEncode : Prop :=
  ∀ i : Instr, i.wellFormed = true →
    decodeWord (encode i) = some i ∧ ∀ rest : List Byte, decodeBytes (encodeBytes i ++ rest) = .ok (i, rest)

/-- R50: each word has one meaning, so an instruction's word is the word it was decoded from. -/
def Obligations.EncodeInvertsDecode : Prop :=
  ∀ (w : Word) (i : Instr), decodeWord w = some i → encode i = w

/-- R50: no two rows of R49 match the same word. -/
def Obligations.OpcodeRowsAreDisjoint : Prop :=
  ∀ (w : Word) (row row' : Word × Word), row ∈ opcodeRows → row' ∈ opcodeRows →
    matchesRow w row = true → matchesRow w row' = true → row = row'

/-- R51: the unknown words are exactly those that match no row of R49. -/
def Obligations.UnknownWordsMatchNoRow : Prop :=
  ∀ w : Word, decodeWord w = none ↔ ∀ row ∈ opcodeRows, matchesRow w row = false

/-- R51's table of the unknown words, class by class. -/
def Obligations.UnknownWordClasses : Prop :=
  ∀ w : Word, decodeWord w = none ↔
    (fieldN1 w = 0x0 ∧ w ≠ 0x00E0 ∧ w ≠ 0x00EE) ∨
    (fieldN1 w = 0x5 ∧ fieldN w ≠ 0x0) ∨
    (fieldN1 w = 0x8 ∧ fieldN w ∈ [0x8, 0x9, 0xA, 0xB, 0xC, 0xD, 0xF]) ∨
    (fieldN1 w = 0x9 ∧ fieldN w ≠ 0x0) ∨
    (fieldN1 w = 0xE ∧ fieldNn w ∉ [0x9E, 0xA1]) ∨
    (fieldN1 w = 0xF ∧ fieldNn w ∉ [0x07, 0x0A, 0x15, 0x18, 0x1E, 0x29, 0x33, 0x55, 0x65])

/-- Words written out from the patterns of R49, one for each family: 6xnn, 7xnn and 0x0000 are the source's own (R49). -/
def Obligations.DecodesWordsOfEachFamily : Prop :=
  decodeWord 0x6005 = some (.ldVxNn 0x0 0x05) ∧ decodeWord 0x7003 = some (.addVxNn 0x0 0x03) ∧
  decodeWord 0x0000 = none ∧ decodeWord 0x2ABC = some (.callAddr 0xABC) ∧ decodeWord 0x5AB0 = some (.seVxVy 0xA 0xB) ∧
  decodeWord 0x8127 = some (.subnVxVy 0x1 0x2) ∧ decodeWord 0xF21E = some (.addIVx 0x2) ∧
  decodeWord 0xC30F = some (.rndVxNn 0x3 0x0F) ∧ decodeWord 0xD015 = some (.drwVxVyN 0x0 0x1 0x5) ∧
  decodeWord 0xE4A1 = some (.sknpVx 0x4) ∧ decodeWord 0xF207 = some (.ldVxDT 0x2) ∧ decodeWord 0xF255 = some (.ldMemIVx 0x2)

/-! ## The cycle -/

/-- R60, R61, R63: a running machine whose two bytes at pc decode to an instruction steps as exec of it. exec itself advances
pc, runs the instruction and steps the timers, so step adds nothing around it. -/
def Obligations.StepRunsDecodedInstruction : Prop :=
  ∀ (s : State) (i : Instr) (rest : List Byte), Running s → s.pc.toNat ≤ 0xFFE →
    decodeBytes [memByte s s.pc.toNat, memByte s (s.pc.toNat + 1)] = .ok (i, rest) → step s = exec i s

/-- R64: an unknown word only advances pc by 2 and steps the timers. -/
def Obligations.UnknownWordIsNoOp : Prop :=
  ∀ s : State, Running s → s.pc.toNat ≤ 0xFFE → decodeWord (nextWord s) = none →
    ∃ t, step s = .next t ∧ t.pc = s.pc + 2 ∧ TimersStepped s t ∧ t = { s with pc := t.pc, dt := t.dt, st := t.st }

/-- R111 (the spec's decision D1): a fetch above 0xFFE latches OutOfBounds with the first address above 0xFFF, and changes nothing else. -/
def Obligations.FetchOutOfBoundsIsLatched : Prop :=
  ∀ s : State, Running s → 0xFFE < s.pc.toNat →
    step s = .next { s with fault := some (.outOfBounds (if s.pc.toNat = 0xFFF then 0x1000 else s.pc)) }

/-- R60: every cycle runs to completion: no step faults or refuses in the host's sense. -/
def Obligations.EveryStepAnswersANextState : Prop :=
  ∀ s : State, ∃ t, step s = .next t

/-- R65 with R101 and R102: in every cycle that raises nothing each timer loses 1 if above 0, after the instruction, whatever it
was; only LD DT,Vx and LD ST,Vx set what is counted down. -/
def Obligations.TimersStepInEveryCycle : Prop :=
  ∀ s t : State, Running s → step s = .next t → Running t →
    (t.dt.toNat = (match decodeWord (nextWord s) with
      | some (.ldDTVx x) => (readReg s x).toNat
      | _ => s.dt.toNat) - 1) ∧
    (t.st.toNat = (match decodeWord (nextWord s) with
      | some (.ldSTVx x) => (readReg s x).toNat
      | _ => s.st.toNat) - 1)

/-- R66 (c): a read of the delay timer k cycles after it was set to v reads max(0, v - k), whatever the cycles between do, but
for setting it again. -/
def Obligations.DelayTimerReadsBackLessElapsedCycles : Prop :=
  ∀ (run : Nat → State) (k : Nat) (x y : RegName) (u : State),
    exec (.ldDTVx x) (run 0) = .next (run 1) →
    (∀ j, 1 ≤ j → j < k → Running (run j) ∧ Running (run (j + 1)) ∧ step (run j) = .next (run (j + 1)) ∧
      ∀ z, decodeWord (nextWord (run j)) ≠ some (.ldDTVx z)) →
    1 ≤ k → exec (.ldVxDT y) (run k) = .next u →
    (readReg u y).toNat = (readReg (run 0) x).toNat - k

/-! ## Fatal conditions -/

/-- R110 (the codes are the spec's decision D5): which condition a cycle raises, by the table of causes, with an address from
0x1000 up; anything else raises nothing. -/
def Obligations.OnlyTheListedCausesRaise : Prop :=
  (∀ s t : State, Running s → step s = .next t → t.fault = nextFault s) ∧
    (∀ (s : State) (a : Word), nextFault s = some (.outOfBounds a) → 0x1000 ≤ a.toNat) ∧
    (∀ a, faultCode (.outOfBounds a) = 1) ∧ faultCode .stackOverflow = 2 ∧ faultCode .stackUnderflow = 3

/-- R118 (the spec's decision D5): a cycle that raises a condition records it in FAULT and leaves every other piece of state
exactly as it was when the cycle began. -/
def Obligations.FatalConditionIsPrecise : Prop :=
  ∀ (s : State) (c : Fault), Running s → nextFault s = some c → step s = .next { s with fault := some c }

/-- R112 (the spec's decisions D1 and D14): an instruction that would touch `count` bytes from I, one of them above 0xFFF, raises
OutOfBounds(max(I, 0x1000)) before any effect; one that would touch none above it raises nothing. -/
def Obligations.DataAccessIsCheckedBeforeAnyEffect : Prop :=
  ∀ (i : Instr) (count : Nat) (s : State), dataCount i = some count →
    (0 < count → 0xFFF < s.idx.toNat + (count - 1) →
      exec i s = .next { s with fault := some (.outOfBounds (BitVec.ofNat 16 (max s.idx.toNat 0x1000))) }) ∧
    (count = 0 ∨ s.idx.toNat + (count - 1) ≤ 0xFFF → ∃ t, exec i s = .next t ∧ t.fault = s.fault)

/-- R119 (the spec's decision D5): while FAULT is set a cycle changes nothing, the keypad may still be written without effect, and of the host's moves only
a RESET makes the machine run again. -/
def Obligations.LatchedMachineIsStuckUntilReset : Prop :=
  ∀ (s : State) (c : Fault), s.fault = some c →
    step s = .next s ∧
    (∀ k, (setKeys k s).fault = some c ∧ step (setKeys k s) = .next (setKeys k s)) ∧
    (∀ move, Running (afterMove move s) ↔ ∃ rom, move = .reset rom ∧ rom.length ≤ 3584)

/-! ## Control flow -/

/-- R70: JP addr completes with any target; a target of 0xFFF makes the next cycle's fetch raise OutOfBounds(0x1000). -/
def Obligations.JumpSetsPc : Prop :=
  ∀ (nnn : Addr) (s : State), decodeWord (encodeNnn 0x1 nnn) = some (.jpAddr nnn) ∧
    ∃ t, exec (.jpAddr nnn) s = .next t ∧ t.pc.toNat = nnn.toNat ∧ TimersStepped s t ∧
      t = { s with pc := t.pc, dt := t.dt, st := t.st } ∧
      (Running s → nnn.toNat = 0xFFF → step t = .next { t with fault := some (.outOfBounds 0x1000) })

/-- R71, R113 (the policy is the spec's decision D2): CALL addr below the stack's depth pushes pc0 + 2, a full 16-bit pc of at
most 0x1000 where a fetch can have succeeded, and jumps; the other entries are unchanged; on a full stack it raises
StackOverflow and changes nothing else. -/
def Obligations.CallPushesAdvancedPcAndJumps : Prop :=
  ∀ (nnn : Addr) (s : State), decodeWord (encodeNnn 0x2 nnn) = some (.callAddr nnn) ∧
    (s.sp.val < 16 → ∃ t, exec (.callAddr nnn) s = .next t ∧ t.pc.toNat = nnn.toNat ∧ t.sp.val = s.sp.val + 1 ∧
      (∀ (j : Nat) (h : j < 16), t.stack[j] = if j = s.sp.val then s.pc + 2 else s.stack[j]) ∧
      (Fetchable s → (s.pc + 2).toNat = s.pc.toNat + 2 ∧ (s.pc + 2).toNat ≤ 0x1000) ∧
      TimersStepped s t ∧ t = { s with pc := t.pc, stack := t.stack, sp := t.sp, dt := t.dt, st := t.st }) ∧
    (s.sp.val = 16 → exec (.callAddr nnn) s = .next { s with fault := some .stackOverflow })

/-- R72, R114 (the policy is the spec's decision D2): RET pops pc, and the popped entry is not cleared; on an empty stack it
raises StackUnderflow and changes nothing else; right after a CALL it restores the pc that followed the CALL, and SP. -/
def Obligations.ReturnPopsPc : Prop :=
  decodeWord 0x00EE = some .ret ∧ ∀ s : State,
    (∀ h : 0 < s.sp.val, ∃ t, exec .ret s = .next t ∧ t.sp.val = s.sp.val - 1 ∧
      t.pc = s.stack[s.sp.val - 1]'(by omega) ∧ TimersStepped s t ∧
      t = { s with pc := t.pc, sp := t.sp, dt := t.dt, st := t.st }) ∧
    (s.sp.val = 0 → exec .ret s = .next { s with fault := some .stackUnderflow }) ∧
    (s.sp.val < 16 → ∀ nnn, ∃ t u, exec (.callAddr nnn) s = .next t ∧ exec .ret t = .next u ∧ u.pc = s.pc + 2 ∧
      u.sp = s.sp ∧ u = { s with pc := u.pc, stack := u.stack, dt := u.dt, st := u.st })

/-- R73: JP V0,addr adds V0, whatever the word's bits 11:8, without reducing modulo 4096; a target above 0xFFE makes the next
fetch raise OutOfBounds. -/
def Obligations.JumpWithOffsetAddsV0 : Prop :=
  ∀ (nnn : Addr) (s : State), decodeWord (encodeNnn 0xB nnn) = some (.jpV0Addr nnn) ∧
    ∃ t, exec (.jpV0Addr nnn) s = .next t ∧ t.pc.toNat = nnn.toNat + (readReg s 0x0).toNat ∧ TimersStepped s t ∧
      t = { s with pc := t.pc, dt := t.dt, st := t.st } ∧
      (Running s → 0xFFE < t.pc.toNat → ∃ a, step t = .next { t with fault := some (.outOfBounds a) })

/-! ## Conditional skip -/

/-- R75, R76: SE Vx,nn and SNE Vx,nn. -/
def Obligations.SkipOnImmediate : Prop :=
  ∀ (x : RegName) (nn : Byte) (s : State),
    (decodeWord (encodeXnn 0x3 x nn) = some (.seVxNn x nn) ∧
      ∃ t, exec (.seVxNn x nn) s = .next t ∧ t.pc = (if readReg s x = nn then s.pc + 4 else s.pc + 2) ∧
        TimersStepped s t ∧ t = { s with pc := t.pc, dt := t.dt, st := t.st }) ∧
    (decodeWord (encodeXnn 0x4 x nn) = some (.sneVxNn x nn) ∧
      ∃ t, exec (.sneVxNn x nn) s = .next t ∧ t.pc = (if readReg s x = nn then s.pc + 2 else s.pc + 4) ∧
        TimersStepped s t ∧ t = { s with pc := t.pc, dt := t.dt, st := t.st })

/-- R77, R78: SE Vx,Vy and SNE Vx,Vy; their words with n4 other than 0 are unknown opcodes (the spec's decision D7). -/
def Obligations.SkipOnRegister : Prop :=
  ∀ (x y : RegName) (s : State),
    (decodeWord (encodeXyn 0x5 x y 0x0) = some (.seVxVy x y) ∧
      ∃ t, exec (.seVxVy x y) s = .next t ∧ t.pc = (if readReg s x = readReg s y then s.pc + 4 else s.pc + 2) ∧
        TimersStepped s t ∧ t = { s with pc := t.pc, dt := t.dt, st := t.st }) ∧
    (decodeWord (encodeXyn 0x9 x y 0x0) = some (.sneVxVy x y) ∧
      ∃ t, exec (.sneVxVy x y) s = .next t ∧ t.pc = (if readReg s x = readReg s y then s.pc + 2 else s.pc + 4) ∧
        TimersStepped s t ∧ t = { s with pc := t.pc, dt := t.dt, st := t.st }) ∧
    ∀ n : Nibble, n ≠ 0 → decodeWord (encodeXyn 0x5 x y n) = none ∧ decodeWord (encodeXyn 0x9 x y n) = none

/-! ## Register load, arithmetic, logic, shift -/

/-- R80, R82: LD Vx,nn and LD Vx,Vy write V[x] alone. -/
def Obligations.LoadWritesOneRegister : Prop :=
  ∀ (x y : RegName) (nn : Byte) (s : State),
    (decodeWord (encodeXnn 0x6 x nn) = some (.ldVxNn x nn) ∧
      ∃ t, exec (.ldVxNn x nn) s = .next t ∧ (∀ r, readReg t r = if r = x then nn else readReg s r) ∧
        t.pc = s.pc + 2 ∧ TimersStepped s t ∧ t = { s with v := t.v, pc := t.pc, dt := t.dt, st := t.st }) ∧
    (decodeWord (encodeXyn 0x8 x y 0x0) = some (.ldVxVy x y) ∧
      ∃ t, exec (.ldVxVy x y) s = .next t ∧ (∀ r, readReg t r = if r = x then readReg s y else readReg s r) ∧
        t.pc = s.pc + 2 ∧ TimersStepped s t ∧ t = { s with v := t.v, pc := t.pc, dt := t.dt, st := t.st })

/-- R81: ADD Vx,nn wraps at 256 and writes no flag. -/
def Obligations.AddImmediateWrapsWithoutFlag : Prop :=
  ∀ (x : RegName) (nn : Byte) (s : State), decodeWord (encodeXnn 0x7 x nn) = some (.addVxNn x nn) ∧
    ∃ t, exec (.addVxNn x nn) s = .next t ∧
      (∀ r, (readReg t r).toNat = if r = x then ((readReg s x).toNat + nn.toNat) % 256 else (readReg s r).toNat) ∧
      t.pc = s.pc + 2 ∧ TimersStepped s t ∧ t = { s with v := t.v, pc := t.pc, dt := t.dt, st := t.st }

/-- R83, R84, R85: OR, AND, XOR, bit by bit, write no flag. -/
def Obligations.BitwiseOperationsWriteNoFlag : Prop :=
  ∀ (x y : RegName) (s : State),
    (decodeWord (encodeXyn 0x8 x y 0x1) = some (.orVxVy x y) ∧
      ∃ t, exec (.orVxVy x y) s = .next t ∧
        (∀ j, (readReg t x).getLsbD j = ((readReg s x).getLsbD j || (readReg s y).getLsbD j)) ∧
        (∀ r, r ≠ x → readReg t r = readReg s r) ∧
        t.pc = s.pc + 2 ∧ TimersStepped s t ∧ t = { s with v := t.v, pc := t.pc, dt := t.dt, st := t.st }) ∧
    (decodeWord (encodeXyn 0x8 x y 0x2) = some (.andVxVy x y) ∧
      ∃ t, exec (.andVxVy x y) s = .next t ∧
        (∀ j, (readReg t x).getLsbD j = ((readReg s x).getLsbD j && (readReg s y).getLsbD j)) ∧
        (∀ r, r ≠ x → readReg t r = readReg s r) ∧
        t.pc = s.pc + 2 ∧ TimersStepped s t ∧ t = { s with v := t.v, pc := t.pc, dt := t.dt, st := t.st }) ∧
    (decodeWord (encodeXyn 0x8 x y 0x3) = some (.xorVxVy x y) ∧
      ∃ t, exec (.xorVxVy x y) s = .next t ∧
        (∀ j, (readReg t x).getLsbD j = ((readReg s x).getLsbD j ^^ (readReg s y).getLsbD j)) ∧
        (∀ r, r ≠ x → readReg t r = readReg s r) ∧
        t.pc = s.pc + 2 ∧ TimersStepped s t ∧ t = { s with v := t.v, pc := t.pc, dt := t.dt, st := t.st })

/-- R86: ADD Vx,Vy: the sum modulo 256 and, written last, the carry; with x = 15 the carry remains. -/
def Obligations.AddSetsCarryLast : Prop :=
  ∀ (x y : RegName) (s : State), decodeWord (encodeXyn 0x8 x y 0x4) = some (.addVxVy x y) ∧
    ∃ t, exec (.addVxVy x y) s = .next t ∧
      (∀ r, (readReg t r).toNat =
        if r = 0xF then (if (readReg s x).toNat + (readReg s y).toNat > 255 then 1 else 0)
        else if r = x then ((readReg s x).toNat + (readReg s y).toNat) % 256
        else (readReg s r).toNat) ∧
      t.pc = s.pc + 2 ∧ TimersStepped s t ∧ t = { s with v := t.v, pc := t.pc, dt := t.dt, st := t.st }

/-- R87: SUB Vx,Vy: V[x] - V[y] modulo 256 and, written last, 1 exactly when V[x] > V[y] (0 when equal). -/
def Obligations.SubtractSetsStrictFlagLast : Prop :=
  ∀ (x y : RegName) (s : State), decodeWord (encodeXyn 0x8 x y 0x5) = some (.subVxVy x y) ∧
    ∃ t, exec (.subVxVy x y) s = .next t ∧
      (∀ r, (readReg t r).toNat =
        if r = 0xF then (if (readReg s x).toNat > (readReg s y).toNat then 1 else 0)
        else if r = x then ((readReg s x).toNat + 256 - (readReg s y).toNat) % 256
        else (readReg s r).toNat) ∧
      t.pc = s.pc + 2 ∧ TimersStepped s t ∧ t = { s with v := t.v, pc := t.pc, dt := t.dt, st := t.st }

/-- R89: SUBN Vx,Vy: V[y] - V[x] modulo 256 and, written last, 1 exactly when V[x] < V[y] (0 when equal). -/
def Obligations.ReverseSubtractSetsStrictFlagLast : Prop :=
  ∀ (x y : RegName) (s : State), decodeWord (encodeXyn 0x8 x y 0x7) = some (.subnVxVy x y) ∧
    ∃ t, exec (.subnVxVy x y) s = .next t ∧
      (∀ r, (readReg t r).toNat =
        if r = 0xF then (if (readReg s x).toNat < (readReg s y).toNat then 1 else 0)
        else if r = x then ((readReg s y).toNat + 256 - (readReg s x).toNat) % 256
        else (readReg s r).toNat) ∧
      t.pc = s.pc + 2 ∧ TimersStepped s t ∧ t = { s with v := t.v, pc := t.pc, dt := t.dt, st := t.st }

/-- R88, R90: SHR and SHL by one, the bit shifted out to VF last; the y field is ignored. -/
def Obligations.ShiftsReportTheBitShiftedOut : Prop :=
  ∀ (x y : RegName) (s : State),
    (decodeWord (encodeXyn 0x8 x y 0x6) = some (.shrVx x y) ∧
      ∃ t, exec (.shrVx x y) s = .next t ∧
        (∀ r, (readReg t r).toNat =
          if r = 0xF then (readReg s x).toNat % 2 else if r = x then (readReg s x).toNat / 2 else (readReg s r).toNat) ∧
        t.pc = s.pc + 2 ∧ TimersStepped s t ∧ t = { s with v := t.v, pc := t.pc, dt := t.dt, st := t.st }) ∧
    (decodeWord (encodeXyn 0x8 x y 0xE) = some (.shlVx x y) ∧
      ∃ t, exec (.shlVx x y) s = .next t ∧
        (∀ r, (readReg t r).toNat =
          if r = 0xF then (readReg s x).toNat / 128
          else if r = x then 2 * (readReg s x).toNat % 256 else (readReg s r).toNat) ∧
        t.pc = s.pc + 2 ∧ TimersStepped s t ∧ t = { s with v := t.v, pc := t.pc, dt := t.dt, st := t.st })

/-- R11: VF changes implicitly only by the six flag-writing instructions, which leave 0 or 1 in it; every other change of VF is one
of an instruction that names VF, or loads all of V from memory. -/
def Obligations.OnlyFlagWritersChangeVfImplicitly : Prop :=
  ∀ (i : Instr) (s t : State), exec i s = .next t → Running s → Running t →
    match i with
    | .addVxVy _ _ | .subVxVy _ _ | .subnVxVy _ _ | .shrVx _ _ | .shlVx _ _ | .drwVxVyN _ _ _ =>
      readReg t 0xF = 0x00 ∨ readReg t 0xF = 0x01
    | .ldVxNn x _ | .addVxNn x _ | .rndVxNn x _ | .ldVxVy x _ | .orVxVy x _ | .andVxVy x _ | .xorVxVy x _
    | .ldVxDT x | .ldVxK x | .ldVxMemI x => x ≠ 0xF → readReg t 0xF = readReg s 0xF
    | _ => readReg t 0xF = readReg s 0xF

/-! ## Index register -/

/-- R91: LD I,nnn. -/
def Obligations.LoadIndex : Prop :=
  ∀ (nnn : Addr) (s : State), decodeWord (encodeNnn 0xA nnn) = some (.ldINnn nnn) ∧
    ∃ t, exec (.ldINnn nnn) s = .next t ∧ t.idx.toNat = nnn.toNat ∧ t.pc = s.pc + 2 ∧ TimersStepped s t ∧
      t = { s with idx := t.idx, pc := t.pc, dt := t.dt, st := t.st }

/-- R92: ADD I,Vx wraps at 16 bits only and writes no flag. -/
def Obligations.AddToIndexWrapsAtSixteenBits : Prop :=
  ∀ (x : RegName) (s : State), decodeWord (encodeXnn 0xF x 0x1E) = some (.addIVx x) ∧
    ∃ t, exec (.addIVx x) s = .next t ∧ t.idx.toNat = (s.idx.toNat + (readReg s x).toNat) % 65536 ∧
      t.pc = s.pc + 2 ∧ TimersStepped s t ∧ t = { s with idx := t.idx, pc := t.pc, dt := t.dt, st := t.st }

/-- R93: LD F,Vx, without a mask of V[x]. -/
def Obligations.LoadGlyphAddress : Prop :=
  ∀ (x : RegName) (s : State), decodeWord (encodeXnn 0xF x 0x29) = some (.ldFVx x) ∧
    ∃ t, exec (.ldFVx x) s = .next t ∧ t.idx.toNat = 0x0050 + 5 * (readReg s x).toNat ∧
      t.pc = s.pc + 2 ∧ TimersStepped s t ∧ t = { s with idx := t.idx, pc := t.pc, dt := t.dt, st := t.st }

/-! ## Random -/

/-- R94 for exec, whose random byte is the model's free value (DESIGN CHOICE, log entries 1 and 2): RND Vx,nn always completes,
writes to V[x] alone the free byte masked with nn, and consumes it; nothing is said of the byte's value. Masking as exec does it
gives, for every random byte, that byte and nn, and reaches every byte within the mask. -/
def Obligations.RandomByteIsMasked : Prop :=
  ∀ (x : RegName) (nn : Byte) (s : State), decodeWord (encodeXnn 0xC x nn) = some (.rndVxNn x nn) ∧
    (∃ t, exec (.rndVxNn x nn) s = .next t ∧
      t.v = (randomMasked (Config.randomByte s.draws) x nn s).v ∧
      readReg t x &&& ~~~nn = 0 ∧ (∀ r, r ≠ x → readReg t r = readReg s r) ∧
      t.draws = s.draws + 1 ∧ t.pc = s.pc + 2 ∧ TimersStepped s t ∧
      t = { s with v := t.v, pc := t.pc, dt := t.dt, st := t.st, draws := t.draws }) ∧
    (∀ rand, readReg (randomMasked rand x nn s) x = rand &&& nn) ∧
    (∀ b : Byte, b &&& ~~~nn = 0 → ∃ rand, readReg (randomMasked rand x nn s) x = b)

/-- R94 for the cycle with the random byte `rand` that the host hands in (R122; the spec's decision D15): where RND is next,
every `rand` gives V[x] = rand and nn, so no bit outside nn, and every byte within the mask is the result of some `rand`; where
RND is not next, `rand` is irrelevant. The counter of random bytes is the model's own (log entry 2), and nothing is said of it. -/
def Obligations.CycleMasksItsRandomByte : Prop :=
  (∀ (x : RegName) (nn : Byte) (s : State), decodeWord (encodeXnn 0xC x nn) = some (.rndVxNn x nn) ∧
    (Running s → Fetchable s → decodeWord (nextWord s) = some (.rndVxNn x nn) →
      (∀ rand, ∃ t, cycleWith rand s = .next t ∧ (∀ r, readReg t r = if r = x then rand &&& nn else readReg s r) ∧
        readReg t x &&& ~~~nn = 0 ∧ t.pc = s.pc + 2 ∧ TimersStepped s t ∧
        t = { s with v := t.v, pc := t.pc, dt := t.dt, st := t.st, draws := t.draws }) ∧
      (∀ b : Byte, b &&& ~~~nn = 0 → ∃ rand t, cycleWith rand s = .next t ∧ readReg t x = b))) ∧
  ∀ s : State,
    (∀ i, Running s → Fetchable s → decodeWord (nextWord s) = some i → readsRandom i = false) →
    ∀ rand rand', cycleWith rand s = cycleWith rand' s

/-- R60: step is the cycle with the free value as its random byte (DESIGN CHOICE, log entry 1), so what is said of step for every
free value is said of the host's cycle. -/
def Obligations.StepIsTheCycleWithTheFreeByte : Prop :=
  ∀ s : State, step s = cycleWith (Config.randomByte s.draws) s

/-! ## Display -/

/-- R95: CLS sets every pixel to 0 and nothing else; VF is not written. -/
def Obligations.ClearScreen : Prop :=
  decodeWord 0x00E0 = some .cls ∧ ∀ s : State,
    ∃ t, exec .cls s = .next t ∧ (∀ r c, pixel t.fb r c = false) ∧ t.pc = s.pc + 2 ∧ TimersStepped s t ∧
      t = { s with fb := t.fb, pc := t.pc, dt := t.dt, st := t.st }

/-- R96: DRW Vx,Vy,n XORs the wrapped sprite into the screen, sets VF to the collision with the screen as it was, and writes no
other register; a sprite that does not lie in memory is OutOfBounds, with no other effect. -/
def Obligations.DrawTogglesSpriteAndReportsCollision : Prop :=
  ∀ (x y : RegName) (n : Nibble) (s : State), decodeWord (encodeXyn 0xD x y n) = some (.drwVxVyN x y n) ∧
    (n.toNat = 0 ∨ s.idx.toNat + (n.toNat - 1) ≤ 0xFFF →
      ∃ t, exec (.drwVxVyN x y n) s = .next t ∧
        (∀ r c, pixel t.fb r c = (pixel s.fb r c ^^ spriteAt s x y n r c)) ∧
        ((∃ r c, spriteAt s x y n r c = true ∧ pixel s.fb r c = true) → readReg t 0xF = 0x01) ∧
        ((∀ r c, ¬ (spriteAt s x y n r c = true ∧ pixel s.fb r c = true)) → readReg t 0xF = 0x00) ∧
        (∀ q, q ≠ 0xF → readReg t q = readReg s q) ∧
        t.pc = s.pc + 2 ∧ TimersStepped s t ∧ t = { s with v := t.v, fb := t.fb, pc := t.pc, dt := t.dt, st := t.st }) ∧
    (0 < n.toNat → 0xFFF < s.idx.toNat + (n.toNat - 1) →
      exec (.drwVxVyN x y n) s =
        .next { s with fault := some (.outOfBounds (if s.idx.toNat ≤ 0xFFF then 0x1000 else s.idx)) })

/-- R96, corner case 4: drawing the same sprite twice at the same position restores the screen, and the second draw reports a
collision exactly when the first turned a pixel on. -/
def Obligations.DrawingTwiceRestoresTheScreen : Prop :=
  ∀ (x y : RegName) (n : Nibble) (s t u : State), x ≠ 0xF → y ≠ 0xF →
    exec (.drwVxVyN x y n) s = .next t → exec (.drwVxVyN x y n) t = .next u →
    u.fb = s.fb ∧
    ((n.toNat = 0 ∨ s.idx.toNat + (n.toNat - 1) ≤ 0xFFF) →
      (readReg u 0xF = 0x01 ↔ ∃ r c, spriteAt s x y n r c = true ∧ pixel s.fb r c = false))

/-! ## Keypad -/

/-- R97, R98: SKP and SKNP test the key V[x] mod 16 of this cycle's keypad, and are each other's complement. -/
def Obligations.SkipOnKey : Prop :=
  ∀ (x : RegName) (s : State),
    (decodeWord (encodeXnn 0xE x 0x9E) = some (.skpVx x) ∧
      ∃ t, exec (.skpVx x) s = .next t ∧
        t.pc = (if s.keys[(readReg s x).toNat % 16]'(Nat.mod_lt _ (by decide)) = true then s.pc + 4 else s.pc + 2) ∧
        TimersStepped s t ∧ t = { s with pc := t.pc, dt := t.dt, st := t.st }) ∧
    (decodeWord (encodeXnn 0xE x 0xA1) = some (.sknpVx x) ∧
      ∃ t, exec (.sknpVx x) s = .next t ∧
        t.pc = (if s.keys[(readReg s x).toNat % 16]'(Nat.mod_lt _ (by decide)) = true then s.pc + 2 else s.pc + 4) ∧
        TimersStepped s t ∧ t = { s with pc := t.pc, dt := t.dt, st := t.st })

/-- R99: LD Vx,K loads the highest pressed key; with none pressed pc stays at the instruction and V[x] as it was. The timers
step in either case. -/
def Obligations.KeyWaitTakesTheHighestKey : Prop :=
  ∀ (x : RegName) (s : State), decodeWord (encodeXnn 0xF x 0x0A) = some (.ldVxK x) ∧
    (∀ k : Fin 16, s.keys[k] = true → (∀ j : Fin 16, k < j → s.keys[j] = false) →
      ∃ t, exec (.ldVxK x) s = .next t ∧ (∀ r, (readReg t r).toNat = if r = x then k.val else (readReg s r).toNat) ∧
        t.pc = s.pc + 2 ∧ TimersStepped s t ∧ t = { s with v := t.v, pc := t.pc, dt := t.dt, st := t.st }) ∧
    ((∀ k : Fin 16, s.keys[k] = false) →
      ∃ t, exec (.ldVxK x) s = .next t ∧ TimersStepped s t ∧ t = { s with dt := t.dt, st := t.st })

/-! ## Timers -/

/-- R100, R101: LD Vx,DT reads the timer before this cycle's step; LD DT,Vx writes it before that step. That LD DT,Vx ends its
cycle with V[x] - 1, or 0 for 0, is the spec's own derivation from R60 and R65 (marked [derived] in R101 and R66). -/
def Obligations.DelayTimerInstructions : Prop :=
  ∀ (x : RegName) (s : State),
    (decodeWord (encodeXnn 0xF x 0x07) = some (.ldVxDT x) ∧
      ∃ t, exec (.ldVxDT x) s = .next t ∧ (∀ r, readReg t r = if r = x then s.dt else readReg s r) ∧
        t.pc = s.pc + 2 ∧ TimersStepped s t ∧ t = { s with v := t.v, pc := t.pc, dt := t.dt, st := t.st }) ∧
    (decodeWord (encodeXnn 0xF x 0x15) = some (.ldDTVx x) ∧
      ∃ t, exec (.ldDTVx x) s = .next t ∧ t.dt.toNat = (readReg s x).toNat - 1 ∧ t.st.toNat = s.st.toNat - 1 ∧
        t.pc = s.pc + 2 ∧ t = { s with pc := t.pc, dt := t.dt, st := t.st })

/-- R102: LD ST,Vx writes ST before this cycle's step, and SOUND, sampled between cycles, is true at the first V[x] - 1 of the
cycle boundaries that follow, this cycle's own first, while nothing sets ST again. The end of the cycle and the boundaries are
the spec's own derivation (marked [derived] in R102, and in R66 for the first). -/
def Obligations.SoundTimerDrivesSound : Prop :=
  ∀ (x : RegName) (s : State), decodeWord (encodeXnn 0xF x 0x18) = some (.ldSTVx x) ∧
    ∃ t, exec (.ldSTVx x) s = .next t ∧ t.st.toNat = (readReg s x).toNat - 1 ∧ t.dt.toNat = s.dt.toNat - 1 ∧
      t.pc = s.pc + 2 ∧ t = { s with pc := t.pc, dt := t.dt, st := t.st } ∧
      ∀ (run : Nat → State) (k : Nat), run 0 = t →
        (∀ j, j < k → Running (run j) ∧ Running (run (j + 1)) ∧ step (run j) = .next (run (j + 1)) ∧
          ∀ z, decodeWord (nextWord (run j)) ≠ some (.ldSTVx z)) →
        (sound (run k) = true ↔ k + 1 < (readReg s x).toNat)

/-! ## Memory block transfer and BCD -/

/-- R103: LD [I],Vx stores V[0] to V[x] at I to I + x and nothing else, or is OutOfBounds with nothing written. That a byte reads
as what was stored needs memory in its canonical form, which every state of a run has (Inv). -/
def Obligations.StoreRegistersAtIndex : Prop :=
  ∀ (x : RegName) (s : State), decodeWord (encodeXnn 0xF x 0x55) = some (.ldMemIVx x) ∧
    (s.idx.toNat + x.toNat ≤ 0xFFF →
      ∃ t, exec (.ldMemIVx x) s = .next t ∧
        (Memory.wf s.mem = true →
          (∀ j : RegName, j.toNat ≤ x.toNat → memByte t (s.idx.toNat + j.toNat) = readReg s j) ∧
          (∀ a, a < s.idx.toNat ∨ s.idx.toNat + x.toNat < a → memByte t a = memByte s a)) ∧
        t.pc = s.pc + 2 ∧ TimersStepped s t ∧ t = { s with mem := t.mem, pc := t.pc, dt := t.dt, st := t.st }) ∧
    (0xFFF < s.idx.toNat + x.toNat →
      exec (.ldMemIVx x) s = .next { s with fault := some (.outOfBounds (BitVec.ofNat 16 (max s.idx.toNat 0x1000))) })

/-- R104: LD Vx,[I] loads V[0] to V[x] from I to I + x and no other register, or is OutOfBounds with nothing loaded. -/
def Obligations.LoadRegistersFromIndex : Prop :=
  ∀ (x : RegName) (s : State), decodeWord (encodeXnn 0xF x 0x65) = some (.ldVxMemI x) ∧
    (s.idx.toNat + x.toNat ≤ 0xFFF →
      ∃ t, exec (.ldVxMemI x) s = .next t ∧
        (∀ j : RegName, readReg t j = if j.toNat ≤ x.toNat then memByte s (s.idx.toNat + j.toNat) else readReg s j) ∧
        t.pc = s.pc + 2 ∧ TimersStepped s t ∧ t = { s with v := t.v, pc := t.pc, dt := t.dt, st := t.st }) ∧
    (0xFFF < s.idx.toNat + x.toNat →
      exec (.ldVxMemI x) s = .next { s with fault := some (.outOfBounds (BitVec.ofNat 16 (max s.idx.toNat 0x1000))) })

/-- R105: LD B,Vx stores the hundreds, tens and ones digit of V[x] at I, I + 1, I + 2 and nothing else, or is OutOfBounds with
nothing written. The bytes are those of a memory in its canonical form (Inv). -/
def Obligations.StoreDecimalDigits : Prop :=
  ∀ (x : RegName) (s : State), decodeWord (encodeXnn 0xF x 0x33) = some (.ldBVx x) ∧
    (s.idx.toNat + 2 ≤ 0xFFF →
      ∃ t, exec (.ldBVx x) s = .next t ∧
        (Memory.wf s.mem = true →
          (memByte t s.idx.toNat).toNat = (readReg s x).toNat / 100 ∧
          (memByte t (s.idx.toNat + 1)).toNat = (readReg s x).toNat / 10 % 10 ∧
          (memByte t (s.idx.toNat + 2)).toNat = (readReg s x).toNat % 10 ∧
          (∀ a, a < s.idx.toNat ∨ s.idx.toNat + 2 < a → memByte t a = memByte s a)) ∧
        t.pc = s.pc + 2 ∧ TimersStepped s t ∧ t = { s with mem := t.mem, pc := t.pc, dt := t.dt, st := t.st }) ∧
    (0xFFF < s.idx.toNat + 2 →
      exec (.ldBVx x) s = .next { s with fault := some (.outOfBounds (BitVec.ofNat 16 (max s.idx.toNat 0x1000))) })

/-- R104: LD Vx,[I] is the inverse of LD [I],Vx: loaded back from the same I, from whatever state holds the stored memory, V[0] to
V[x] are what was stored. -/
def Obligations.LoadUndoesStore : Prop :=
  ∀ (x : RegName) (s t u w : State), Memory.wf s.mem = true → s.idx.toNat + x.toNat ≤ 0xFFF →
    exec (.ldMemIVx x) s = .next t → u.mem = t.mem → u.idx = s.idx → exec (.ldVxMemI x) u = .next w →
    ∀ j : RegName, j.toNat ≤ x.toNat → readReg w j = readReg s j

/-- R42 (marked [derived] there): what LD [I],Vx and LD B,Vx stored is seen by every later fetch, from whatever state holds the
stored memory and wherever in memory its pc stands: each byte of the fetched word is the stored one, if it was stored to, and
else what it was before; so also where only one byte of the word was stored. -/
def Obligations.StoreIsSeenByTheNextFetch : Prop :=
  ∀ (x : RegName) (s t u : State), Memory.wf s.mem = true → u.mem = t.mem → u.pc.toNat ≤ 0xFFE →
    (s.idx.toNat + x.toNat ≤ 0xFFF → exec (.ldMemIVx x) s = .next t →
      let stored := (List.range (x.toNat + 1)).map fun j => readReg s (BitVec.ofNat 4 j)
      fetchWord u = .ok (wordOfBytes (byteAfterStore stored s u.pc.toNat) (byteAfterStore stored s (u.pc.toNat + 1)))) ∧
    (s.idx.toNat + 2 ≤ 0xFFF → exec (.ldBVx x) s = .next t →
      let v := (readReg s x).toNat
      let stored := [BitVec.ofNat 8 (v / 100), BitVec.ofNat 8 (v / 10 % 10), BitVec.ofNat 8 (v % 10)]
      fetchWord u = .ok (wordOfBytes (byteAfterStore stored s u.pc.toNat) (byteAfterStore stored s (u.pc.toNat + 1))))

/-! ## Reset and the host's moves -/

/-- R24, R130, R131 (I, FB and FAULT by the spec's decisions D12 and D5): RESET(rom) from any state leaves every piece of state at
its reset value, the ROM at 0x200 and the font at 0x050; a ROM of more than 3584 bytes is refused and the state kept (D18). -/
def Obligations.ResetBuildsTheResetState : Prop :=
  ∀ (rom : List Byte) (s : State),
    (rom.length ≤ 3584 →
      ∃ t, resetRom rom s = .next t ∧ (∀ r, readReg t r = 0x00) ∧ t.pc = 0x0200 ∧ t.idx = 0x0000 ∧
        (∀ (j : Nat) (h : j < 16), t.stack[j] = 0x0000) ∧ t.sp.val = 0 ∧ t.dt = 0x00 ∧ t.st = 0x00 ∧
        (∀ k : Fin 16, t.keys[k] = false) ∧ (∀ r c, pixel t.fb r c = false) ∧ t.fault = none ∧ sound t = false ∧
        (∀ a, memByte t a =
          if 0x200 ≤ a ∧ a < 0x200 + rom.length then rom.getD (a - 0x200) 0
          else if 0x050 ≤ a ∧ a ≤ 0x09F then fontTable.getD (a - 0x050) 0
          else 0x00)) ∧
    (3584 < rom.length → resetRom rom s = .refused .romTooLarge ∧ afterMove (.reset rom) s = s)

/-- R24: the state the model starts from is the one RESET with the empty ROM builds (its counter of random bytes, the model's own
field, is 0 there: DESIGN CHOICE, log entry 2). -/
def Obligations.StartStateIsResetWithTheEmptyRom : Prop :=
  ∀ s : State, resetRom [] s = .next { State.reset with draws := s.draws }

/-- The invariant holds after reset (R24). -/
def Obligations.InvariantHoldsAtReset : Prop := Inv State.reset

/-- R13, R15, R21 and the canonical form of memory: every step from a state that meets the invariant gives one that meets it. -/
def Obligations.InvariantKeptByEveryStep : Prop :=
  ∀ s t : State, Inv s → step s = .next t → Inv t

/-- R13, R137: the invariant holds along every run, whatever the host's moves, from any state that meets it. -/
def Obligations.InvariantHoldsAlongEveryHostRun : Prop :=
  ∀ (moves : List HostMove) (s : State), Inv s → Inv (hostRun moves s)

/-- R19, D17: in the packed row the host reads, bit c is the pixel of column c. -/
def Obligations.PackedRowBitIsColumn : Prop :=
  ∀ (s : State) (r : Fin 32) (c : Fin 64), (fbRow s r).getLsbD c.val = pixel s.fb r c

/-! ## Whole-machine rules -/

/-- R25, the matrix of writes: which instructions may change which state, over all of them; R18: none changes the keypad. -/
def Obligations.OnlyTheListedInstructionsWrite : Prop :=
  ∀ (i : Instr) (s t : State), exec i s = .next t →
    t.keys = s.keys ∧
    (t.fb ≠ s.fb → i = .cls ∨ ∃ x y n, i = .drwVxVyN x y n) ∧
    (t.mem ≠ s.mem → ∃ x, i = .ldMemIVx x ∨ i = .ldBVx x) ∧
    (t.stack ≠ s.stack → ∃ nnn, i = .callAddr nnn) ∧
    (t.sp ≠ s.sp → i = .ret ∨ ∃ nnn, i = .callAddr nnn) ∧
    (t.idx ≠ s.idx → (∃ nnn, i = .ldINnn nnn) ∨ ∃ x, i = .addIVx x ∨ i = .ldFVx x) ∧
    (t.draws ≠ s.draws → ∃ x nn, i = .rndVxNn x nn)

/-- R138 for the keypad: a cycle that executes none of SKP, SKNP and LD Vx,K is independent of it. -/
def Obligations.KeypadMattersOnlyToItsInstructions : Prop :=
  ∀ (s : State) (k : Vector Bool 16),
    (∀ i, decodeWord (nextWord s) = some i → readsKeys i = false) →
    step (setKeys k s) = mapNext (setKeys k) (step s)

/-- R94: only RND reads the random byte; in any other cycle its value, here the place in the sequence of random bytes (DESIGN
CHOICE, log entry 2), is irrelevant. -/
def Obligations.RandomByteMattersOnlyToRnd : Prop :=
  ∀ (s : State) (d : Nat),
    (∀ i, decodeWord (nextWord s) = some i → readsRandom i = false) →
    step { s with draws := d } = mapNext (fun t => { t with draws := d }) (step s)

/-- R17: no instruction reads the sound timer: two machines that differ in it alone differ in it alone after a cycle. -/
def Obligations.SoundTimerIsNeverRead : Prop :=
  ∀ (s : State) (b : Byte),
    ∃ t t', step s = .next t ∧ step { s with st := b } = .next t' ∧ t' = { t with st := t'.st }
end

