-- ==== Sys2Proof/Laws/Decode.lean ====
section
/-! SUPPORT. Words and their fields as numbers (R6, R46), and what each format assembles (R47). -/

namespace Sys2Proof

/-- Two bit vectors side by side, as a number. -/
theorem toNat_append_eq {m n : Nat} (a : BitVec m) (b : BitVec n) : (a ++ b).toNat = a.toNat * 2 ^ n + b.toNat := by
  rw [BitVec.toNat_append, ← Nat.shiftLeft_add_eq_or_of_lt b.isLt, Nat.shiftLeft_eq]

/-- The big-endian word as a number (R45). -/
theorem toNat_wordOfBytes (hi lo : Byte) : (wordOfBytes hi lo).toNat = hi.toNat * 256 + lo.toNat :=
  toNat_append_eq hi lo

theorem toNat_encodeNnn (n1 : Nibble) (nnn : Addr) : (encodeNnn n1 nnn).toNat = n1.toNat * 4096 + nnn.toNat :=
  toNat_append_eq n1 nnn

theorem toNat_encodeXnn (n1 : Nibble) (x : RegName) (nn : Byte) :
    (encodeXnn n1 x nn).toNat = n1.toNat * 4096 + x.toNat * 256 + nn.toNat := by
  have h1 : (encodeXnn n1 x nn).toNat = (n1 ++ x : Byte).toNat * 256 + nn.toNat := toNat_append_eq (n1 ++ x : Byte) nn
  have h2 : (n1 ++ x : Byte).toNat = n1.toNat * 16 + x.toNat := toNat_append_eq n1 x
  rw [h1, h2, Nat.add_mul, Nat.mul_assoc]

theorem toNat_encodeXyn (n1 : Nibble) (x y : RegName) (n : Nibble) :
    (encodeXyn n1 x y n).toNat = n1.toNat * 4096 + x.toNat * 256 + y.toNat * 16 + n.toNat := by
  have h1 : (encodeXyn n1 x y n).toNat = (n1 ++ x : Byte).toNat * 256 + (y ++ n : Byte).toNat :=
    toNat_append_eq (n1 ++ x : Byte) (y ++ n : Byte)
  have h2 : (n1 ++ x : Byte).toNat = n1.toNat * 16 + x.toNat := toNat_append_eq n1 x
  have h3 : (y ++ n : Byte).toNat = y.toNat * 16 + n.toNat := toNat_append_eq y n
  rw [h1, h2, h3, Nat.add_mul, Nat.mul_assoc, Nat.add_assoc (_ + _)]

theorem toNat_fieldN1 (w : Word) : (fieldN1 w).toNat = w.toNat / 4096 % 16 := by
  simp [fieldN1, Nat.shiftRight_eq_div_pow]
theorem toNat_fieldX (w : Word) : (fieldX w).toNat = w.toNat / 256 % 16 := by
  simp [fieldX, Nat.shiftRight_eq_div_pow]
theorem toNat_fieldY (w : Word) : (fieldY w).toNat = w.toNat / 16 % 16 := by
  simp [fieldY, Nat.shiftRight_eq_div_pow]
theorem toNat_fieldN (w : Word) : (fieldN w).toNat = w.toNat % 16 := by simp [fieldN]
theorem toNat_fieldNn (w : Word) : (fieldNn w).toNat = w.toNat % 256 := by simp [fieldNn]
theorem toNat_fieldNnn (w : Word) : (fieldNnn w).toNat = w.toNat % 4096 := by simp [fieldNnn]

/-- A word's two bytes, put together again (R45). -/
theorem bytesOfWord_eq (w : Word) :
    ∃ hi lo : Byte, bytesOfWord w = [hi, lo] ∧ wordOfBytes hi lo = w := by
  refine ⟨w.extractLsb' 8 8, w.extractLsb' 0 8, rfl, BitVec.eq_of_toNat_eq ?_⟩
  have := w.isLt
  rw [toNat_wordOfBytes]
  simp [Nat.shiftRight_eq_div_pow]
  omega

@[simp] theorem fieldN1_encodeNnn (n1 : Nibble) (nnn : Addr) : fieldN1 (encodeNnn n1 nnn) = n1 := by
  apply BitVec.eq_of_toNat_eq
  rw [toNat_fieldN1, toNat_encodeNnn]
  omega
@[simp] theorem fieldNnn_encodeNnn (n1 : Nibble) (nnn : Addr) : fieldNnn (encodeNnn n1 nnn) = nnn := by
  apply BitVec.eq_of_toNat_eq
  rw [toNat_fieldNnn, toNat_encodeNnn]
  omega
@[simp] theorem fieldN1_encodeXnn (n1 : Nibble) (x : RegName) (nn : Byte) : fieldN1 (encodeXnn n1 x nn) = n1 := by
  apply BitVec.eq_of_toNat_eq
  rw [toNat_fieldN1, toNat_encodeXnn]
  omega
@[simp] theorem fieldX_encodeXnn (n1 : Nibble) (x : RegName) (nn : Byte) : fieldX (encodeXnn n1 x nn) = x := by
  apply BitVec.eq_of_toNat_eq
  rw [toNat_fieldX, toNat_encodeXnn]
  omega
@[simp] theorem fieldNn_encodeXnn (n1 : Nibble) (x : RegName) (nn : Byte) : fieldNn (encodeXnn n1 x nn) = nn := by
  apply BitVec.eq_of_toNat_eq
  rw [toNat_fieldNn, toNat_encodeXnn]
  omega
@[simp] theorem fieldN1_encodeXyn (n1 : Nibble) (x y : RegName) (n : Nibble) : fieldN1 (encodeXyn n1 x y n) = n1 := by
  apply BitVec.eq_of_toNat_eq
  rw [toNat_fieldN1, toNat_encodeXyn]
  omega
@[simp] theorem fieldX_encodeXyn (n1 : Nibble) (x y : RegName) (n : Nibble) : fieldX (encodeXyn n1 x y n) = x := by
  apply BitVec.eq_of_toNat_eq
  rw [toNat_fieldX, toNat_encodeXyn]
  omega
@[simp] theorem fieldY_encodeXyn (n1 : Nibble) (x y : RegName) (n : Nibble) : fieldY (encodeXyn n1 x y n) = y := by
  apply BitVec.eq_of_toNat_eq
  rw [toNat_fieldY, toNat_encodeXyn]
  omega
@[simp] theorem fieldN_encodeXyn (n1 : Nibble) (x y : RegName) (n : Nibble) : fieldN (encodeXyn n1 x y n) = n := by
  apply BitVec.eq_of_toNat_eq
  rw [toNat_fieldN, toNat_encodeXyn]
  omega

/-- Every word of format NNN is assembled from its fields. -/
theorem encodeNnn_fields (w : Word) : encodeNnn (fieldN1 w) (fieldNnn w) = w := by
  apply BitVec.eq_of_toNat_eq
  have := w.isLt
  rw [toNat_encodeNnn, toNat_fieldN1, toNat_fieldNnn]
  omega
/-- Every word of formats XNN and X is assembled from its fields. -/
theorem encodeXnn_fields (w : Word) : encodeXnn (fieldN1 w) (fieldX w) (fieldNn w) = w := by
  apply BitVec.eq_of_toNat_eq
  have := w.isLt
  rw [toNat_encodeXnn, toNat_fieldN1, toNat_fieldX, toNat_fieldNn]
  omega
/-- Every word of formats XY and XYN is assembled from its fields. -/
theorem encodeXyn_fields (w : Word) : encodeXyn (fieldN1 w) (fieldX w) (fieldY w) (fieldN w) = w := by
  apply BitVec.eq_of_toNat_eq
  have := w.isLt
  rw [toNat_encodeXyn, toNat_fieldN1, toNat_fieldX, toNat_fieldY, toNat_fieldN]
  omega

end Sys2Proof
end

