-- ==== Sys2Proof/Laws/Display.lean ====
section
/-! SUPPORT. Drawing in closed form: which pixels a sprite byte and a whole sprite toggle, and when they collide (R96). -/

namespace Sys2Proof.Machine

/-- One pixel written: that pixel, and every other as before (R19). -/
theorem pixel_setPixel (fb : Framebuffer) (r r' : Fin 32) (c c' : Fin 64) (p : Bool) :
    pixel (setPixel fb r c p) r' c' = if r' = r ∧ c' = c then p else pixel fb r' c' := by
  unfold pixel setPixel
  by_cases hr : r = r'
  · subst hr
    by_cases hc : c = c'
    · subst hc
      simp
    · have : c.val ≠ c'.val := fun e => hc (Fin.ext e)
      simp [this, Ne.symm hc]
  · have : r.val ≠ r'.val := fun e => hr (Fin.ext e)
    simp [this, Ne.symm hr]

/-- Framebuffers with the same pixels are equal. -/
theorem framebuffer_ext {fb fb' : Framebuffer} (h : ∀ r c, pixel fb r c = pixel fb' r c) : fb = fb' := by
  apply Vector.ext
  intro r hr
  apply Vector.ext
  intro c hc
  exact h ⟨r, hr⟩ ⟨c, hc⟩

/-- A drawn bit toggles its pixel alone, and collides if both are set (R96). -/
theorem drawBit_spec (r : Fin 32) (c : Fin 64) (bit : Bool) (acc : Framebuffer × Bool) :
    (∀ r' c', pixel (drawBit r c bit acc).1 r' c' = (pixel acc.1 r' c' ^^ (decide (r' = r ∧ c' = c) && bit))) ∧
      (drawBit r c bit acc).2 = (acc.2 || (bit && pixel acc.1 r c)) := by
  refine ⟨fun r' c' => ?_, rfl⟩
  simp only [drawBit, pixel_setPixel]
  by_cases h : r' = r ∧ c' = c
  · obtain ⟨rfl, rfl⟩ := h
    simp
  · simp [h]

/-- The first `m` bits of a sprite byte (the loop of `drawByte`, cut short). -/
theorem drawBits_spec (r : Fin 32) (x0 : Nat) (b : Byte) (acc : Framebuffer × Bool) (m : Nat) (hm : m ≤ 8) :
    let out := (List.range m).foldl (fun acc k => drawBit r (screenCol (x0 + k)) (spriteBit b k) acc) acc
    (∀ r' (c' : Fin 64), pixel out.1 r' c' =
        (pixel acc.1 r' c' ^^
          (decide (r' = r ∧ (c'.val + 64 - x0 % 64) % 64 < m) && spriteBit b ((c'.val + 64 - x0 % 64) % 64)))) ∧
      (out.2 = true ↔ acc.2 = true ∨ ∃ k < m, spriteBit b k = true ∧ pixel acc.1 r (screenCol (x0 + k)) = true) := by
  induction m with
  | zero => simp
  | succ m ih =>
    obtain ⟨hpix, hhit⟩ := ih (by omega)
    simp only [List.range_succ, List.foldl_append, List.foldl_cons, List.foldl_nil]
    obtain ⟨dpix, dhit⟩ := drawBit_spec r (screenCol (x0 + m)) (spriteBit b m)
      ((List.range m).foldl (fun acc k => drawBit r (screenCol (x0 + k)) (spriteBit b k) acc) acc)
    have hcol (c' : Fin 64) : c' = screenCol (x0 + m) ↔ (c'.val + 64 - x0 % 64) % 64 = m := by
      have := c'.isLt
      simp only [Fin.ext_iff, screenCol]
      omega
    constructor
    · intro r' c'
      rw [dpix, hpix]
      simp only [hcol]
      generalize (c'.val + 64 - x0 % 64) % 64 = d
      by_cases hr : r' = r
      · by_cases hd : d = m
        · simp [hr, hd]
        · have : d < m + 1 ↔ d < m := by omega
          simp [hr, hd, this]
      · simp [hr]
    · rw [dhit, hpix]
      have hfix : (((screenCol (x0 + m)).val + 64 - x0 % 64) % 64) = m := (hcol _).1 rfl
      simp only [hfix, Nat.lt_irrefl, and_false, decide_false, Bool.false_and, Bool.xor_false, Bool.or_eq_true,
        Bool.and_eq_true, hhit]
      constructor
      · rintro ((h | ⟨k, hk, h⟩) | h)
        · exact .inl h
        · exact .inr ⟨k, by omega, h⟩
        · exact .inr ⟨m, by omega, h⟩
      · rintro (h | ⟨k, hk, h⟩)
        · exact .inl (.inl h)
        · by_cases hkm : k = m
          · subst hkm
            exact .inr h
          · exact .inl (.inr ⟨k, by omega, h⟩)

/-- A drawn sprite byte: the 8 pixels of its row it toggles, and its collisions (R96). -/
theorem drawByte_spec (r : Fin 32) (x0 : Nat) (b : Byte) (acc : Framebuffer × Bool) :
    (∀ r' (c' : Fin 64), pixel (drawByte r x0 b acc).1 r' c' =
        (pixel acc.1 r' c' ^^
          (decide (r' = r ∧ (c'.val + 64 - x0 % 64) % 64 < 8) && spriteBit b ((c'.val + 64 - x0 % 64) % 64)))) ∧
      ((drawByte r x0 b acc).2 = true ↔
        acc.2 = true ∨ ∃ k < 8, spriteBit b k = true ∧ pixel acc.1 r (screenCol (x0 + k)) = true) :=
  drawBits_spec r x0 b acc 8 (Nat.le_refl 8)

/-- A drawn sprite of fewer than 32 bytes: the pixels it toggles, and its collisions with the screen as it was before: no pixel
is touched twice (R96). -/
theorem drawBytes_spec (x0 y0 : Nat) (bs : List Byte) (acc : Framebuffer × Bool) (hbs : bs.length < 32) :
    (∀ (r' : Fin 32) (c' : Fin 64), pixel (drawBytes x0 y0 bs acc).1 r' c' =
        (pixel acc.1 r' c' ^^
          (decide ((r'.val + 32 - y0 % 32) % 32 < bs.length ∧ (c'.val + 64 - x0 % 64) % 64 < 8) &&
            spriteBit (bs.getD ((r'.val + 32 - y0 % 32) % 32) 0) ((c'.val + 64 - x0 % 64) % 64)))) ∧
      ((drawBytes x0 y0 bs acc).2 = true ↔
        acc.2 = true ∨ ∃ j < bs.length, ∃ k < 8, spriteBit (bs.getD j 0) k = true ∧
          pixel acc.1 (screenRow (y0 + j)) (screenCol (x0 + k)) = true) := by
  induction bs generalizing y0 acc with
  | nil => simp [drawBytes]
  | cons b bs ih =>
    simp only [List.length_cons] at hbs
    obtain ⟨bpix, bhit⟩ := drawByte_spec (screenRow y0) x0 b acc
    obtain ⟨hpix, hhit⟩ := ih (y0 + 1) (drawByte (screenRow y0) x0 b acc) (by omega)
    simp only [drawBytes]
    have hrow (r' : Fin 32) : r' = screenRow y0 ↔ (r'.val + 32 - y0 % 32) % 32 = 0 := by
      have := r'.isLt
      simp only [Fin.ext_iff, screenRow]
      omega
    have hnext (r' : Fin 32) (h : (r'.val + 32 - y0 % 32) % 32 ≠ 0) :
        (r'.val + 32 - y0 % 32) % 32 = (r'.val + 32 - (y0 + 1) % 32) % 32 + 1 := by
      have := r'.isLt
      omega
    constructor
    · intro r' c'
      rw [hpix, bpix]
      simp only [hrow]
      by_cases h0 : (r'.val + 32 - y0 % 32) % 32 = 0
      · have hlast : (r'.val + 32 - (y0 + 1) % 32) % 32 = 31 := by
          have := r'.isLt
          omega
        simp [h0, hlast, show ¬ 31 < bs.length by omega]
      · simp [hnext r' h0]
    · rw [hhit, bhit]
      have hold (j : Nat) (hj : j < bs.length) (c' : Fin 64) :
          pixel (drawByte (screenRow y0) x0 b acc).1 (screenRow (y0 + 1 + j)) c' =
            pixel acc.1 (screenRow (y0 + 1 + j)) c' := by
        have : ¬ screenRow (y0 + 1 + j) = screenRow y0 := by
          simp only [Fin.ext_iff, screenRow]
          omega
        simp [bpix, this]
      constructor
      · rintro ((h | ⟨k, hk, h⟩) | ⟨j, hj, k, hk, h, hp⟩)
        · exact .inl h
        · exact .inr ⟨0, by simp, k, hk, by simpa using h⟩
        · rw [hold j hj] at hp
          exact .inr ⟨j + 1, by simpa using hj, k, hk, by simpa using h, by rwa [show y0 + (j + 1) = y0 + 1 + j by omega]⟩
      · rintro (h | ⟨j, hj, k, hk, h, hp⟩)
        · exact .inl (.inl h)
        · cases j with
          | zero => exact .inl (.inr ⟨k, hk, by simpa using h, by simpa using hp⟩)
          | succ j =>
            have hj' : j < bs.length := by simpa using hj
            refine .inr ⟨j, hj', k, hk, by simpa using h, ?_⟩
            rw [hold j hj']
            rwa [show y0 + 1 + j = y0 + (j + 1) by omega]

end Sys2Proof.Machine
end

