-- ==== Sys2Proof/Laws/Keypad.lean ====
section
/-! SUPPORT. The key scan of `LD Vx,K` (R99): no key, or the highest one. -/

namespace Sys2Proof.Machine

/-- A scan that meets no pressed key keeps what it had. -/
theorem keyScan_none (p : Fin 16 → Bool) (l : List (Fin 16)) (acc : Option (Fin 16)) (h : ∀ k ∈ l, p k = false) :
    l.foldl (fun found k => if p k then some k else found) acc = acc := by
  induction l generalizing acc with
  | nil => rfl
  | cons a l ih =>
    rw [List.foldl_cons, ih _ fun k hk => h k (List.mem_cons_of_mem a hk)]
    simp [h a]

/-- An ascending scan ends with the last pressed key it meets. -/
theorem keyScan_last (p : Fin 16 → Bool) (l : List (Fin 16)) (hl : l.Pairwise (· < ·)) (acc : Option (Fin 16)) {k : Fin 16}
    (hk : k ∈ l) (hp : p k = true) (hlast : ∀ j ∈ l, k < j → p j = false) :
    l.foldl (fun found k => if p k then some k else found) acc = some k := by
  induction l generalizing acc with
  | nil => simp at hk
  | cons a l ih =>
    rw [List.foldl_cons]
    obtain ⟨ha, hl'⟩ := List.pairwise_cons.1 hl
    rcases List.mem_cons.1 hk with rfl | hk'
    · rw [keyScan_none p l _ fun j hj => hlast j (List.mem_cons_of_mem k hj) (ha j hj)]
      simp [hp]
    · exact ih hl' _ hk' fun j hj => hlast j (List.mem_cons_of_mem a hj)

/-- With no key pressed the scan finds none (R99). -/
theorem highestKey_eq_none {keys : Vector Bool 16} (h : ∀ k : Fin 16, keys[k] = false) : highestKey keys = none :=
  keyScan_none (fun k => keys[k]) _ none fun k _ => h k

/-- The scan finds the pressed key above which no key is pressed (R99, `90_conflicts.md` C2). -/
theorem highestKey_eq_some {keys : Vector Bool 16} {k : Fin 16} (hk : keys[k] = true)
    (hlast : ∀ j : Fin 16, k < j → keys[j] = false) : highestKey keys = some k :=
  keyScan_last (fun k => keys[k]) _ (List.pairwise_lt_finRange 16) none (List.mem_finRange k) hk fun j _ => hlast j

end Sys2Proof.Machine
end

