-- ==== Sys2Proof/Laws/Memory.lean ====
section
/-! SUPPORT. Memory: read after write, the canonical form and its uniqueness. -/

namespace Sys2Proof.Machine

/-- A cell below every listed one reads as unlisted. -/
theorem readCell_below {m : Memory} {low a : Nat} (h : Memory.wfFrom low m = true) (ha : a < low) :
    readCell m a = unlistedByte a := by
  induction m generalizing low with
  | nil => rfl
  | cons c m ih =>
    obtain ⟨k, b⟩ := c
    simp only [Memory.wfFrom, Bool.and_eq_true, decide_eq_true_eq] at h
    obtain ⟨⟨⟨hlow, -⟩, -⟩, hm⟩ := h
    rw [readCell, if_neg (by omega)]
    exact ih hm (by omega)

/-- A looser lower bound. -/
theorem Memory.wfFrom_mono {m : Memory} {low low' : Nat} (hle : low' ≤ low) (h : Memory.wfFrom low m = true) :
    Memory.wfFrom low' m = true := by
  cases m with
  | nil => rfl
  | cons c m =>
    obtain ⟨k, b⟩ := c
    simp only [Memory.wfFrom, Bool.and_eq_true, decide_eq_true_eq] at h ⊢
    exact ⟨⟨⟨by omega, h.1.1.2⟩, h.1.2⟩, h.2⟩

/-- Writing one cell: that cell reads as what was written, every other cell as before (R34, R39). -/
theorem readCell_writeCell {m : Memory} {low : Nat} (hm : Memory.wfFrom low m = true) (a c : Nat) (b : Byte) :
    readCell (writeCell m a b) c = if c = a then b else readCell m c := by
  induction m generalizing low with
  | nil =>
    by_cases hb : b = unlistedByte a <;> by_cases hc : c = a <;> simp [writeCell, readCell, hb, hc]
    · exact fun h => absurd h.symm hc
  | cons e m ih =>
    obtain ⟨k, d⟩ := e
    simp only [Memory.wfFrom, Bool.and_eq_true, decide_eq_true_eq] at hm
    obtain ⟨⟨⟨-, -⟩, -⟩, hm⟩ := hm
    simp only [writeCell]
    split
    · have hbelow : readCell ((k, d) :: m) a = unlistedByte a := by
        rw [readCell, if_neg (by omega)]
        exact readCell_below hm (by omega)
      split
      · split
        · simp_all
        · rfl
      · simp only [readCell, eq_comm (a := a)]
    · split
      · subst k
        split
        · split
          · subst c
            rw [readCell_below hm (by omega)]
            exact Eq.symm ‹_›
          · simp only [readCell]
            rw [if_neg (fun h => ‹¬c = a› h.symm)]
        · simp only [readCell, eq_comm (a := a)]
          split <;> rfl
      · simp only [readCell, ih hm]
        split
        · rw [if_neg (by omega)]
        · rfl

/-- Writing one cell of the address space keeps the canonical form. -/
theorem writeCell_wfFrom {m : Memory} {low : Nat} (hm : Memory.wfFrom low m = true) {a : Nat} (hlow : low ≤ a)
    (ha : a < Config.memSize) (b : Byte) : Memory.wfFrom low (writeCell m a b) = true := by
  induction m generalizing low with
  | nil => by_cases hb : b = unlistedByte a <;> simp [writeCell, Memory.wfFrom, hb, hlow, ha]
  | cons e m ih =>
    obtain ⟨k, d⟩ := e
    simp only [Memory.wfFrom, Bool.and_eq_true, decide_eq_true_eq] at hm
    obtain ⟨⟨⟨hk, hk'⟩, hd⟩, hm⟩ := hm
    simp only [writeCell]
    split
    · split
      · simp [Memory.wfFrom, hk, hk', hd, hm]
      · simp [Memory.wfFrom, *]
    · split
      · subst k
        split
        · exact Memory.wfFrom_mono (by omega) hm
        · simp [Memory.wfFrom, *]
      · simp [Memory.wfFrom, hk, hk', hd, ih hm (by omega : k + 1 ≤ a)]

/-- Writing one cell keeps the canonical form. -/
theorem writeCell_wf {m : Memory} (hm : Memory.wf m = true) {a : Nat} (ha : a < Config.memSize) (b : Byte) :
    Memory.wf (writeCell m a b) = true :=
  writeCell_wfFrom hm (Nat.zero_le a) ha b

/-- Writing a run of cells inside the address space keeps the canonical form. -/
theorem writeCells_wf {m : Memory} (hm : Memory.wf m = true) (a : Nat) (bs : List Byte)
    (ha : a + bs.length ≤ Config.memSize) : Memory.wf (writeCells m a bs) = true := by
  induction bs generalizing m a with
  | nil => exact hm
  | cons b bs ih =>
    simp only [List.length_cons] at ha
    exact ih (writeCell_wf hm (by omega) b) (a + 1) (by omega)

/-- A run of cells written inside the address space: the bytes in rising order, every other cell as before (R38). -/
theorem readCell_writeCells {m : Memory} (hm : Memory.wf m = true) (a : Nat) (bs : List Byte)
    (ha : a + bs.length ≤ Config.memSize) (c : Nat) :
    readCell (writeCells m a bs) c = if a ≤ c ∧ c < a + bs.length then bs.getD (c - a) 0 else readCell m c := by
  induction bs generalizing m a with
  | nil =>
    rw [if_neg (by simp)]
    rfl
  | cons b bs ih =>
    simp only [List.length_cons] at ha ⊢
    simp only [writeCells]
    rw [ih (writeCell_wf hm (by omega) b) (a + 1) (by omega), readCell_writeCell hm]
    by_cases h : c = a
    · subst h
      rw [if_neg (by omega), if_pos rfl, if_pos (by omega)]
      simp
    · by_cases h2 : a + 1 ≤ c ∧ c < a + 1 + bs.length
      · rw [if_pos h2, if_pos (by omega), show c - a = (c - (a + 1)) + 1 by omega]
        simp
      · rw [if_neg h2, if_neg h, if_neg (by omega)]

/-- A run of cells read: as many bytes as asked for, each its cell's. -/
@[simp] theorem length_readCells (m : Memory) (a n : Nat) : (readCells m a n).length = n := by
  induction n generalizing a with
  | zero => rfl
  | succ n ih => simp [readCells, ih]

theorem getElem_readCells (m : Memory) (a n j : Nat) (h : j < (readCells m a n).length) :
    (readCells m a n)[j] = readCell m (a + j) := by
  induction n generalizing a j with
  | zero => simp at h
  | succ n ih =>
    cases j with
    | zero => simp [readCells]
    | succ j =>
      simp only [readCells, List.getElem_cons_succ]
      rw [ih]
      congr 1
      omega

/-- Memory after reset is canonical. -/
theorem Memory.wf_nil : Memory.wf [] = true := rfl

/-- Canonical memories with the same contents are the same data. -/
theorem Memory.ext_of_wfFrom {m m' : Memory} {low low' : Nat} (hm : Memory.wfFrom low m = true)
    (hm' : Memory.wfFrom low' m' = true) (h : ∀ a, readCell m a = readCell m' a) : m = m' := by
  induction m generalizing m' low low' with
  | nil =>
    cases m' with
    | nil => rfl
    | cons e m' =>
      obtain ⟨k, b⟩ := e
      simp only [Memory.wfFrom, Bool.and_eq_true, decide_eq_true_eq] at hm'
      have := h k
      simp [readCell] at this
      exact absurd this.symm hm'.1.2
  | cons e m ih =>
    obtain ⟨k, b⟩ := e
    simp only [Memory.wfFrom, Bool.and_eq_true, decide_eq_true_eq] at hm
    cases m' with
    | nil =>
      have := h k
      simp [readCell] at this
      exact absurd this hm.1.2
    | cons e' m' =>
      obtain ⟨k', b'⟩ := e'
      simp only [Memory.wfFrom, Bool.and_eq_true, decide_eq_true_eq] at hm'
      have hk : k = k' := by
        rcases Nat.lt_trichotomy k k' with hlt | heq | hgt
        · have := h k
          rw [readCell, if_pos rfl, readCell, if_neg (by omega), readCell_below hm'.2 (by omega)] at this
          exact absurd this hm.1.2
        · exact heq
        · have := h k'
          rw [readCell, if_neg (by omega), readCell_below hm.2 (by omega), readCell, if_pos rfl] at this
          exact absurd this.symm hm'.1.2
      subst hk
      have hb : b = b' := by simpa [readCell] using h k
      subst hb
      rw [ih hm.2 hm'.2 fun a => ?_]
      by_cases ha : k = a
      · subst ha
        rw [readCell_below hm.2 (by omega), readCell_below hm'.2 (by omega)]
      · simpa [readCell, ha] using h a

end Sys2Proof.Machine
end

