-- ==== Sys2Proof/Laws/State.lean ====
section
/-! SUPPORT. One lemma per field of State per named update, each true by unfolding the update once. -/

namespace Sys2Proof.Machine

@[simp] theorem writeReg_v (x : RegName) (b : Byte) (s : State) : (writeReg x b s).v = s.v.set x.toNat b x.isLt := rfl
@[simp] theorem writeReg_pc (x : RegName) (b : Byte) (s : State) : (writeReg x b s).pc = s.pc := rfl
@[simp] theorem writeReg_idx (x : RegName) (b : Byte) (s : State) : (writeReg x b s).idx = s.idx := rfl
@[simp] theorem writeReg_stack (x : RegName) (b : Byte) (s : State) : (writeReg x b s).stack = s.stack := rfl
@[simp] theorem writeReg_sp (x : RegName) (b : Byte) (s : State) : (writeReg x b s).sp = s.sp := rfl
@[simp] theorem writeReg_dt (x : RegName) (b : Byte) (s : State) : (writeReg x b s).dt = s.dt := rfl
@[simp] theorem writeReg_st (x : RegName) (b : Byte) (s : State) : (writeReg x b s).st = s.st := rfl
@[simp] theorem writeReg_keys (x : RegName) (b : Byte) (s : State) : (writeReg x b s).keys = s.keys := rfl
@[simp] theorem writeReg_fb (x : RegName) (b : Byte) (s : State) : (writeReg x b s).fb = s.fb := rfl
@[simp] theorem writeReg_mem (x : RegName) (b : Byte) (s : State) : (writeReg x b s).mem = s.mem := rfl
@[simp] theorem writeReg_fault (x : RegName) (b : Byte) (s : State) : (writeReg x b s).fault = s.fault := rfl
@[simp] theorem writeReg_draws (x : RegName) (b : Byte) (s : State) : (writeReg x b s).draws = s.draws := rfl

@[simp] theorem writeIdx_v (a : Word) (s : State) : (writeIdx a s).v = s.v := rfl
@[simp] theorem writeIdx_pc (a : Word) (s : State) : (writeIdx a s).pc = s.pc := rfl
@[simp] theorem writeIdx_idx (a : Word) (s : State) : (writeIdx a s).idx = a := rfl
@[simp] theorem writeIdx_stack (a : Word) (s : State) : (writeIdx a s).stack = s.stack := rfl
@[simp] theorem writeIdx_sp (a : Word) (s : State) : (writeIdx a s).sp = s.sp := rfl
@[simp] theorem writeIdx_dt (a : Word) (s : State) : (writeIdx a s).dt = s.dt := rfl
@[simp] theorem writeIdx_st (a : Word) (s : State) : (writeIdx a s).st = s.st := rfl
@[simp] theorem writeIdx_keys (a : Word) (s : State) : (writeIdx a s).keys = s.keys := rfl
@[simp] theorem writeIdx_fb (a : Word) (s : State) : (writeIdx a s).fb = s.fb := rfl
@[simp] theorem writeIdx_mem (a : Word) (s : State) : (writeIdx a s).mem = s.mem := rfl
@[simp] theorem writeIdx_fault (a : Word) (s : State) : (writeIdx a s).fault = s.fault := rfl
@[simp] theorem writeIdx_draws (a : Word) (s : State) : (writeIdx a s).draws = s.draws := rfl

@[simp] theorem jumpTo_v (a : Word) (s : State) : (jumpTo a s).v = s.v := rfl
@[simp] theorem jumpTo_pc (a : Word) (s : State) : (jumpTo a s).pc = a := rfl
@[simp] theorem jumpTo_idx (a : Word) (s : State) : (jumpTo a s).idx = s.idx := rfl
@[simp] theorem jumpTo_stack (a : Word) (s : State) : (jumpTo a s).stack = s.stack := rfl
@[simp] theorem jumpTo_sp (a : Word) (s : State) : (jumpTo a s).sp = s.sp := rfl
@[simp] theorem jumpTo_dt (a : Word) (s : State) : (jumpTo a s).dt = s.dt := rfl
@[simp] theorem jumpTo_st (a : Word) (s : State) : (jumpTo a s).st = s.st := rfl
@[simp] theorem jumpTo_keys (a : Word) (s : State) : (jumpTo a s).keys = s.keys := rfl
@[simp] theorem jumpTo_fb (a : Word) (s : State) : (jumpTo a s).fb = s.fb := rfl
@[simp] theorem jumpTo_mem (a : Word) (s : State) : (jumpTo a s).mem = s.mem := rfl
@[simp] theorem jumpTo_fault (a : Word) (s : State) : (jumpTo a s).fault = s.fault := rfl
@[simp] theorem jumpTo_draws (a : Word) (s : State) : (jumpTo a s).draws = s.draws := rfl

@[simp] theorem advancePc_v (s : State) : (advancePc s).v = s.v := rfl
@[simp] theorem advancePc_pc (s : State) : (advancePc s).pc = s.pc + 2 := rfl
@[simp] theorem advancePc_idx (s : State) : (advancePc s).idx = s.idx := rfl
@[simp] theorem advancePc_stack (s : State) : (advancePc s).stack = s.stack := rfl
@[simp] theorem advancePc_sp (s : State) : (advancePc s).sp = s.sp := rfl
@[simp] theorem advancePc_dt (s : State) : (advancePc s).dt = s.dt := rfl
@[simp] theorem advancePc_st (s : State) : (advancePc s).st = s.st := rfl
@[simp] theorem advancePc_keys (s : State) : (advancePc s).keys = s.keys := rfl
@[simp] theorem advancePc_fb (s : State) : (advancePc s).fb = s.fb := rfl
@[simp] theorem advancePc_mem (s : State) : (advancePc s).mem = s.mem := rfl
@[simp] theorem advancePc_fault (s : State) : (advancePc s).fault = s.fault := rfl
@[simp] theorem advancePc_draws (s : State) : (advancePc s).draws = s.draws := rfl

@[simp] theorem rewindPc_v (s : State) : (rewindPc s).v = s.v := rfl
@[simp] theorem rewindPc_pc (s : State) : (rewindPc s).pc = s.pc - 2 := rfl
@[simp] theorem rewindPc_idx (s : State) : (rewindPc s).idx = s.idx := rfl
@[simp] theorem rewindPc_stack (s : State) : (rewindPc s).stack = s.stack := rfl
@[simp] theorem rewindPc_sp (s : State) : (rewindPc s).sp = s.sp := rfl
@[simp] theorem rewindPc_dt (s : State) : (rewindPc s).dt = s.dt := rfl
@[simp] theorem rewindPc_st (s : State) : (rewindPc s).st = s.st := rfl
@[simp] theorem rewindPc_keys (s : State) : (rewindPc s).keys = s.keys := rfl
@[simp] theorem rewindPc_fb (s : State) : (rewindPc s).fb = s.fb := rfl
@[simp] theorem rewindPc_mem (s : State) : (rewindPc s).mem = s.mem := rfl
@[simp] theorem rewindPc_fault (s : State) : (rewindPc s).fault = s.fault := rfl
@[simp] theorem rewindPc_draws (s : State) : (rewindPc s).draws = s.draws := rfl

@[simp] theorem timerStep_v (s : State) : (timerStep s).v = s.v := rfl
@[simp] theorem timerStep_pc (s : State) : (timerStep s).pc = s.pc := rfl
@[simp] theorem timerStep_idx (s : State) : (timerStep s).idx = s.idx := rfl
@[simp] theorem timerStep_stack (s : State) : (timerStep s).stack = s.stack := rfl
@[simp] theorem timerStep_sp (s : State) : (timerStep s).sp = s.sp := rfl
@[simp] theorem timerStep_dt (s : State) : (timerStep s).dt = countDown s.dt := rfl
@[simp] theorem timerStep_st (s : State) : (timerStep s).st = countDown s.st := rfl
@[simp] theorem timerStep_keys (s : State) : (timerStep s).keys = s.keys := rfl
@[simp] theorem timerStep_fb (s : State) : (timerStep s).fb = s.fb := rfl
@[simp] theorem timerStep_mem (s : State) : (timerStep s).mem = s.mem := rfl
@[simp] theorem timerStep_fault (s : State) : (timerStep s).fault = s.fault := rfl
@[simp] theorem timerStep_draws (s : State) : (timerStep s).draws = s.draws := rfl

@[simp] theorem storeAtI_v (bs : List Byte) (s : State) : (storeAtI bs s).v = s.v := rfl
@[simp] theorem storeAtI_pc (bs : List Byte) (s : State) : (storeAtI bs s).pc = s.pc := rfl
@[simp] theorem storeAtI_idx (bs : List Byte) (s : State) : (storeAtI bs s).idx = s.idx := rfl
@[simp] theorem storeAtI_stack (bs : List Byte) (s : State) : (storeAtI bs s).stack = s.stack := rfl
@[simp] theorem storeAtI_sp (bs : List Byte) (s : State) : (storeAtI bs s).sp = s.sp := rfl
@[simp] theorem storeAtI_dt (bs : List Byte) (s : State) : (storeAtI bs s).dt = s.dt := rfl
@[simp] theorem storeAtI_st (bs : List Byte) (s : State) : (storeAtI bs s).st = s.st := rfl
@[simp] theorem storeAtI_keys (bs : List Byte) (s : State) : (storeAtI bs s).keys = s.keys := rfl
@[simp] theorem storeAtI_fb (bs : List Byte) (s : State) : (storeAtI bs s).fb = s.fb := rfl
@[simp] theorem storeAtI_mem (bs : List Byte) (s : State) : (storeAtI bs s).mem = writeCells s.mem s.idx.toNat bs := rfl
@[simp] theorem storeAtI_fault (bs : List Byte) (s : State) : (storeAtI bs s).fault = s.fault := rfl
@[simp] theorem storeAtI_draws (bs : List Byte) (s : State) : (storeAtI bs s).draws = s.draws := rfl

@[simp] theorem countDraw_v (s : State) : (countDraw s).v = s.v := rfl
@[simp] theorem countDraw_pc (s : State) : (countDraw s).pc = s.pc := rfl
@[simp] theorem countDraw_idx (s : State) : (countDraw s).idx = s.idx := rfl
@[simp] theorem countDraw_stack (s : State) : (countDraw s).stack = s.stack := rfl
@[simp] theorem countDraw_sp (s : State) : (countDraw s).sp = s.sp := rfl
@[simp] theorem countDraw_dt (s : State) : (countDraw s).dt = s.dt := rfl
@[simp] theorem countDraw_st (s : State) : (countDraw s).st = s.st := rfl
@[simp] theorem countDraw_keys (s : State) : (countDraw s).keys = s.keys := rfl
@[simp] theorem countDraw_fb (s : State) : (countDraw s).fb = s.fb := rfl
@[simp] theorem countDraw_mem (s : State) : (countDraw s).mem = s.mem := rfl
@[simp] theorem countDraw_fault (s : State) : (countDraw s).fault = s.fault := rfl
@[simp] theorem countDraw_draws (s : State) : (countDraw s).draws = s.draws + 1 := rfl

@[simp] theorem setKeys_v (k : Vector Bool 16) (s : State) : (setKeys k s).v = s.v := rfl
@[simp] theorem setKeys_pc (k : Vector Bool 16) (s : State) : (setKeys k s).pc = s.pc := rfl
@[simp] theorem setKeys_idx (k : Vector Bool 16) (s : State) : (setKeys k s).idx = s.idx := rfl
@[simp] theorem setKeys_stack (k : Vector Bool 16) (s : State) : (setKeys k s).stack = s.stack := rfl
@[simp] theorem setKeys_sp (k : Vector Bool 16) (s : State) : (setKeys k s).sp = s.sp := rfl
@[simp] theorem setKeys_dt (k : Vector Bool 16) (s : State) : (setKeys k s).dt = s.dt := rfl
@[simp] theorem setKeys_st (k : Vector Bool 16) (s : State) : (setKeys k s).st = s.st := rfl
@[simp] theorem setKeys_keys (k : Vector Bool 16) (s : State) : (setKeys k s).keys = k := rfl
@[simp] theorem setKeys_fb (k : Vector Bool 16) (s : State) : (setKeys k s).fb = s.fb := rfl
@[simp] theorem setKeys_mem (k : Vector Bool 16) (s : State) : (setKeys k s).mem = s.mem := rfl
@[simp] theorem setKeys_fault (k : Vector Bool 16) (s : State) : (setKeys k s).fault = s.fault := rfl
@[simp] theorem setKeys_draws (k : Vector Bool 16) (s : State) : (setKeys k s).draws = s.draws := rfl

@[simp] theorem skipIf_pc (c : Bool) (s : State) : (skipIf c s).pc = if c then s.pc + 2 else s.pc := by cases c <;> rfl
@[simp] theorem skipIf_v (c : Bool) (s : State) : (skipIf c s).v = s.v := by cases c <;> rfl
@[simp] theorem skipIf_idx (c : Bool) (s : State) : (skipIf c s).idx = s.idx := by cases c <;> rfl
@[simp] theorem skipIf_stack (c : Bool) (s : State) : (skipIf c s).stack = s.stack := by cases c <;> rfl
@[simp] theorem skipIf_sp (c : Bool) (s : State) : (skipIf c s).sp = s.sp := by cases c <;> rfl
@[simp] theorem skipIf_dt (c : Bool) (s : State) : (skipIf c s).dt = s.dt := by cases c <;> rfl
@[simp] theorem skipIf_st (c : Bool) (s : State) : (skipIf c s).st = s.st := by cases c <;> rfl
@[simp] theorem skipIf_keys (c : Bool) (s : State) : (skipIf c s).keys = s.keys := by cases c <;> rfl
@[simp] theorem skipIf_fb (c : Bool) (s : State) : (skipIf c s).fb = s.fb := by cases c <;> rfl
@[simp] theorem skipIf_mem (c : Bool) (s : State) : (skipIf c s).mem = s.mem := by cases c <;> rfl
@[simp] theorem skipIf_fault (c : Bool) (s : State) : (skipIf c s).fault = s.fault := by cases c <;> rfl
@[simp] theorem skipIf_draws (c : Bool) (s : State) : (skipIf c s).draws = s.draws := by cases c <;> rfl

@[simp] theorem writeFlag_pc (f : Bool) (s : State) : (writeFlag f s).pc = s.pc := rfl
@[simp] theorem writeFlag_idx (f : Bool) (s : State) : (writeFlag f s).idx = s.idx := rfl
@[simp] theorem writeFlag_stack (f : Bool) (s : State) : (writeFlag f s).stack = s.stack := rfl
@[simp] theorem writeFlag_sp (f : Bool) (s : State) : (writeFlag f s).sp = s.sp := rfl
@[simp] theorem writeFlag_dt (f : Bool) (s : State) : (writeFlag f s).dt = s.dt := rfl
@[simp] theorem writeFlag_st (f : Bool) (s : State) : (writeFlag f s).st = s.st := rfl
@[simp] theorem writeFlag_keys (f : Bool) (s : State) : (writeFlag f s).keys = s.keys := rfl
@[simp] theorem writeFlag_fb (f : Bool) (s : State) : (writeFlag f s).fb = s.fb := rfl
@[simp] theorem writeFlag_mem (f : Bool) (s : State) : (writeFlag f s).mem = s.mem := rfl
@[simp] theorem writeFlag_fault (f : Bool) (s : State) : (writeFlag f s).fault = s.fault := rfl
@[simp] theorem writeFlag_draws (f : Bool) (s : State) : (writeFlag f s).draws = s.draws := rfl

@[simp] theorem writeResultAndFlag_pc (x : RegName) (b : Byte) (f : Bool) (s : State) : (writeResultAndFlag x b f s).pc = s.pc := rfl
@[simp] theorem writeResultAndFlag_idx (x : RegName) (b : Byte) (f : Bool) (s : State) : (writeResultAndFlag x b f s).idx = s.idx := rfl
@[simp] theorem writeResultAndFlag_stack (x : RegName) (b : Byte) (f : Bool) (s : State) : (writeResultAndFlag x b f s).stack = s.stack := rfl
@[simp] theorem writeResultAndFlag_sp (x : RegName) (b : Byte) (f : Bool) (s : State) : (writeResultAndFlag x b f s).sp = s.sp := rfl
@[simp] theorem writeResultAndFlag_dt (x : RegName) (b : Byte) (f : Bool) (s : State) : (writeResultAndFlag x b f s).dt = s.dt := rfl
@[simp] theorem writeResultAndFlag_st (x : RegName) (b : Byte) (f : Bool) (s : State) : (writeResultAndFlag x b f s).st = s.st := rfl
@[simp] theorem writeResultAndFlag_keys (x : RegName) (b : Byte) (f : Bool) (s : State) : (writeResultAndFlag x b f s).keys = s.keys := rfl
@[simp] theorem writeResultAndFlag_fb (x : RegName) (b : Byte) (f : Bool) (s : State) : (writeResultAndFlag x b f s).fb = s.fb := rfl
@[simp] theorem writeResultAndFlag_mem (x : RegName) (b : Byte) (f : Bool) (s : State) : (writeResultAndFlag x b f s).mem = s.mem := rfl
@[simp] theorem writeResultAndFlag_fault (x : RegName) (b : Byte) (f : Bool) (s : State) : (writeResultAndFlag x b f s).fault = s.fault := rfl
@[simp] theorem writeResultAndFlag_draws (x : RegName) (b : Byte) (f : Bool) (s : State) : (writeResultAndFlag x b f s).draws = s.draws := rfl

@[simp] theorem loadRegsAtI_pc (x : RegName) (s : State) : (loadRegsAtI x s).pc = s.pc := by unfold loadRegsAtI; rfl
@[simp] theorem loadRegsAtI_idx (x : RegName) (s : State) : (loadRegsAtI x s).idx = s.idx := by unfold loadRegsAtI; rfl
@[simp] theorem loadRegsAtI_stack (x : RegName) (s : State) : (loadRegsAtI x s).stack = s.stack := by unfold loadRegsAtI; rfl
@[simp] theorem loadRegsAtI_sp (x : RegName) (s : State) : (loadRegsAtI x s).sp = s.sp := by unfold loadRegsAtI; rfl
@[simp] theorem loadRegsAtI_dt (x : RegName) (s : State) : (loadRegsAtI x s).dt = s.dt := by unfold loadRegsAtI; rfl
@[simp] theorem loadRegsAtI_st (x : RegName) (s : State) : (loadRegsAtI x s).st = s.st := by unfold loadRegsAtI; rfl
@[simp] theorem loadRegsAtI_keys (x : RegName) (s : State) : (loadRegsAtI x s).keys = s.keys := by unfold loadRegsAtI; rfl
@[simp] theorem loadRegsAtI_fb (x : RegName) (s : State) : (loadRegsAtI x s).fb = s.fb := by unfold loadRegsAtI; rfl
@[simp] theorem loadRegsAtI_mem (x : RegName) (s : State) : (loadRegsAtI x s).mem = s.mem := by unfold loadRegsAtI; rfl
@[simp] theorem loadRegsAtI_fault (x : RegName) (s : State) : (loadRegsAtI x s).fault = s.fault := by unfold loadRegsAtI; rfl
@[simp] theorem loadRegsAtI_draws (x : RegName) (s : State) : (loadRegsAtI x s).draws = s.draws := by unfold loadRegsAtI; rfl

@[simp] theorem randomMasked_pc (rand : Byte) (x : RegName) (nn : Byte) (s : State) : (randomMasked rand x nn s).pc = s.pc := rfl
@[simp] theorem randomMasked_idx (rand : Byte) (x : RegName) (nn : Byte) (s : State) : (randomMasked rand x nn s).idx = s.idx := rfl
@[simp] theorem randomMasked_stack (rand : Byte) (x : RegName) (nn : Byte) (s : State) : (randomMasked rand x nn s).stack = s.stack := rfl
@[simp] theorem randomMasked_sp (rand : Byte) (x : RegName) (nn : Byte) (s : State) : (randomMasked rand x nn s).sp = s.sp := rfl
@[simp] theorem randomMasked_dt (rand : Byte) (x : RegName) (nn : Byte) (s : State) : (randomMasked rand x nn s).dt = s.dt := rfl
@[simp] theorem randomMasked_st (rand : Byte) (x : RegName) (nn : Byte) (s : State) : (randomMasked rand x nn s).st = s.st := rfl
@[simp] theorem randomMasked_keys (rand : Byte) (x : RegName) (nn : Byte) (s : State) : (randomMasked rand x nn s).keys = s.keys := rfl
@[simp] theorem randomMasked_fb (rand : Byte) (x : RegName) (nn : Byte) (s : State) : (randomMasked rand x nn s).fb = s.fb := rfl
@[simp] theorem randomMasked_mem (rand : Byte) (x : RegName) (nn : Byte) (s : State) : (randomMasked rand x nn s).mem = s.mem := rfl
@[simp] theorem randomMasked_fault (rand : Byte) (x : RegName) (nn : Byte) (s : State) : (randomMasked rand x nn s).fault = s.fault := rfl
@[simp] theorem randomMasked_draws (rand : Byte) (x : RegName) (nn : Byte) (s : State) : (randomMasked rand x nn s).draws = s.draws := rfl

/-- Reading a register after any one of them was written (R10: no hard-wired register). -/
theorem readReg_writeReg (x r : RegName) (b : Byte) (s : State) :
    readReg (writeReg x b s) r = if r = x then b else readReg s r := by
  simp only [readReg, writeReg, Vector.getElem_set]
  by_cases h : r = x
  · simp [h]
  · have h' : x.toNat ≠ r.toNat := fun e => h (BitVec.eq_of_toNat_eq e).symm
    simp [h, h']

/-- A written register reads as what was written. -/
@[simp] theorem readReg_writeReg_same (x : RegName) (b : Byte) (s : State) : readReg (writeReg x b s) x = b := by
  simp [readReg_writeReg]

/-- The flag is the last write: with x = 15 it remains (R12). -/
theorem readReg_writeResultAndFlag (x r : RegName) (b : Byte) (f : Bool) (s : State) :
    readReg (writeResultAndFlag x b f s) r = if r = 0xF then flagByte f else if r = x then b else readReg s r := by
  simp only [writeResultAndFlag, writeFlag, readReg_writeReg]

/-- A flag written alone (R11). -/
theorem readReg_writeFlag (r : RegName) (f : Bool) (s : State) :
    readReg (writeFlag f s) r = if r = 0xF then flagByte f else readReg s r := by
  simp only [writeFlag, readReg_writeReg]

/-- A flag as a number (R11). -/
theorem toNat_flagByte (f : Bool) : (flagByte f).toNat = if f then 1 else 0 := by cases f <;> rfl

/-- A flag is 1 exactly when it is set (R11). -/
theorem flagByte_eq_one_iff (f : Bool) : flagByte f = 0x01 ↔ f = true := by cases f <;> decide

/-- A flag is 0 exactly when it is clear (R11). -/
theorem flagByte_eq_zero_iff (f : Bool) : flagByte f = 0x00 ↔ f = false := by cases f <;> decide

/-- V0 to Vx are loaded, the registers above are untouched (R104). -/
theorem readReg_loadRegsAtI (x r : RegName) (s : State) :
    readReg (loadRegsAtI x s) r =
      if r.toNat ≤ x.toNat then readCell s.mem (s.idx.toNat + r.toNat) else readReg s r := by
  simp [readReg, loadRegsAtI, regsFromMemory]

/-- Reading a register looks at V only. -/
theorem readReg_congr {s t : State} (h : s.v = t.v) (r : RegName) : readReg s r = readReg t r := by
  simp [readReg, h]

@[simp] theorem readReg_advancePc (s : State) (r : RegName) : readReg (advancePc s) r = readReg s r := rfl
@[simp] theorem readReg_timerStep (s : State) (r : RegName) : readReg (timerStep s) r = readReg s r := rfl
@[simp] theorem readReg_jumpTo (a : Word) (s : State) (r : RegName) : readReg (jumpTo a s) r = readReg s r := rfl
@[simp] theorem readReg_countDraw (s : State) (r : RegName) : readReg (countDraw s) r = readReg s r := rfl
/-- V[x] is the masked random byte, every other register as before (R94). -/
theorem readReg_randomMasked (rand : Byte) (x r : RegName) (nn : Byte) (s : State) :
    readReg (randomMasked rand x nn s) r = if r = x then rand &&& nn else readReg s r := readReg_writeReg x r _ s
@[simp] theorem readReg_writeIdx (a : Word) (s : State) (r : RegName) : readReg (writeIdx a s) r = readReg s r := rfl
@[simp] theorem readReg_skipIf (c : Bool) (s : State) (r : RegName) : readReg (skipIf c s) r = readReg s r := by
  cases c <;> rfl

/-- A timer's step in natural numbers: 1 less, never below 0 (R65). -/
theorem countDown_toNat (t : Byte) : (countDown t).toNat = t.toNat - 1 := by
  unfold countDown
  split
  · have := t.isLt
    simp [BitVec.toNat_sub]
    omega
  · omega

end Sys2Proof.Machine
end

