-- ==== Sys2Proof/Laws/Ops.lean ====
section
/-! SUPPORT. What each shared operation can do, once: the cycle's frame, the bounds check, the fetch, the stack, the step. -/

namespace Sys2Proof.Machine

/-- The cycle of an instruction that raises nothing: advance, effect, timer step. -/
@[simp] theorem complete_eq (effect : State → State) (s : State) :
    complete effect s = .next (timerStep (effect (advancePc s))) := rfl

/-- Everything a cycle's body can do to it: complete, or raise with the entry state kept (R118). -/
theorem cycle_cases {body : State → Except Fault State} {s t : State} (h : cycle body s = .next t) :
    (∃ u, body (advancePc s) = .ok u ∧ t = timerStep u) ∨
      (∃ c, body (advancePc s) = .error c ∧ t = { s with fault := some c }) := by
  unfold cycle raise at h
  cases hb : body (advancePc s) with
  | ok u =>
    rw [hb] at h
    injection h with h
    exact .inl ⟨u, rfl, h.symm⟩
  | error c =>
    rw [hb] at h
    injection h with h
    exact .inr ⟨c, rfl, h.symm⟩

/-- A cycle whose body completes. -/
theorem cycle_ok {body : State → Except Fault State} {s u : State} (h : body (advancePc s) = .ok u) :
    cycle body s = .next (timerStep u) := by simp [cycle, h]

/-- A cycle whose body raises a condition. -/
theorem cycle_error {body : State → Except Fault State} {s : State} {c : Fault} (h : body (advancePc s) = .error c) :
    cycle body s = .next { s with fault := some c } := by simp [cycle, h, raise]

/-- A skip after the advance: pc0 + 4 when the condition holds, else pc0 + 2, and nothing else (R75 to R78). -/
theorem skipIf_advancePc (condition : Bool) (s : State) :
    skipIf condition (advancePc s) = jumpTo (if condition then s.pc + 4 else s.pc + 2) s := by
  cases condition
  · rfl
  · simp [skipIf, advancePc, jumpTo, BitVec.add_assoc]

/-- A key wait with no key pressed leaves pc at its own instruction (R99). -/
theorem rewindPc_advancePc (s : State) : rewindPc (advancePc s) = s := by simp [rewindPc, advancePc, jumpTo]

/-- The bounds check passes exactly when every byte lies at or below 0xFFF, or there is none (R38). -/
theorem boundsFault_eq_none_iff (base count : Nat) :
    boundsFault base count = none ↔ count = 0 ∨ base + count ≤ 0x1000 := by
  unfold boundsFault Config.memSize
  split <;> simp_all

/-- The bounds check is the one R112 states. -/
theorem boundsFault_eq_dataFault (base count : Nat) : boundsFault base count = dataFault base count := by
  unfold boundsFault dataFault Config.memSize
  by_cases h : count = 0 ∨ base + count ≤ 0x1000
  · rw [if_pos h, if_neg (by omega)]
  · rw [if_neg h, if_pos (by omega)]

/-- A condition of the bounds check reports an address outside memory (R110). -/
theorem boundsFault_address {base count : Nat} {c : Fault} (hbase : base < 0x10000) (h : boundsFault base count = some c) :
    ∃ a : Word, c = .outOfBounds a ∧ 0x1000 ≤ a.toNat := by
  unfold boundsFault Config.memSize at h
  split at h
  · cases h
  · injection h with h
    refine ⟨_, h.symm, ?_⟩
    rw [BitVec.toNat_ofNat, Nat.mod_eq_of_lt] <;> omega

/-- An effect on bytes at I: whole, or not at all (R38). -/
theorem onBytesAtI_cases (count : Nat) (effect : State → State) (s : State) :
    (boundsFault s.idx.toNat count = none ∧ onBytesAtI count effect s = .ok (effect s)) ∨
      (∃ c, boundsFault s.idx.toNat count = some c ∧ onBytesAtI count effect s = .error c) := by
  unfold onBytesAtI
  cases boundsFault s.idx.toNat count <;> simp

/-- The cycle of an effect on bytes at I that all lie in memory (R38). -/
theorem cycle_onBytesAtI_ok {count : Nat} (effect : State → State) {s : State}
    (h : count = 0 ∨ s.idx.toNat + count ≤ 0x1000) :
    cycle (onBytesAtI count effect) s = .next (timerStep (effect (advancePc s))) := by
  apply cycle_ok
  have hb : boundsFault (advancePc s).idx.toNat count = none := (boundsFault_eq_none_iff _ _).2 h
  simp only [onBytesAtI, hb]

/-- The cycle of an effect on bytes at I of which one lies above 0xFFF: OutOfBounds and nothing else (R112, R118). -/
theorem cycle_onBytesAtI_error {count : Nat} (effect : State → State) {s : State}
    (hc : 0 < count) (h : 0x1000 < s.idx.toNat + count) :
    cycle (onBytesAtI count effect) s =
      .next { s with fault := some (.outOfBounds (BitVec.ofNat 16 (max s.idx.toNat 0x1000))) } := by
  apply cycle_error
  have hb : boundsFault (advancePc s).idx.toNat count =
      some (.outOfBounds (BitVec.ofNat 16 (max s.idx.toNat 0x1000))) := by
    rw [boundsFault_eq_dataFault, dataFault, if_pos ⟨hc, by simp only [advancePc_idx]; omega⟩]
    rfl
  simp only [onBytesAtI, hb]

/-- A fetch succeeds exactly when both bytes lie in memory, and gives the word at pc (R61). -/
theorem fetchWord_ok {s : State} (h : Fetchable s) : fetchWord s = .ok (nextWord s) := by
  unfold Fetchable at h
  simp [fetchWord, memRead, nextWord, memByte, Config.memSize, show ¬ 4096 ≤ s.pc.toNat by omega,
    show ¬ 4095 ≤ s.pc.toNat by omega]

/-- A fetch that does not fit in memory raises OutOfBounds at its first address above 0xFFF (R61, R111). -/
theorem fetchWord_error {s : State} (h : ¬ Fetchable s) :
    fetchWord s = .error (.outOfBounds (if s.pc = 0xFFF then 0x1000 else s.pc)) := by
  unfold Fetchable at h
  by_cases hp : s.pc = 0xFFF
  · simp [fetchWord, memRead, Config.memSize, hp]
  · have hn : s.pc.toNat ≠ 0xFFF := fun e => hp (BitVec.eq_of_toNat_eq e)
    rw [if_neg hp]
    simp [fetchWord, memRead, Config.memSize, show 4096 ≤ s.pc.toNat by omega]

/-- A cycle while FAULT is set changes nothing, whatever executes instructions (R119). -/
theorem cycleBy_latched (run : Instr → State → Host.Outcome State Fault Refusal) {s : State} {c : Fault}
    (h : s.fault = some c) : cycleBy run s = .next s := by simp [cycleBy, h, stuck]

/-- A cycle of a running machine that can fetch runs the word at pc (R60). -/
theorem cycleBy_fetchable (run : Instr → State → Host.Outcome State Fault Refusal) {s : State} (hr : Running s)
    (hf : Fetchable s) : cycleBy run s = runWord run (nextWord s) s := by
  unfold Running at hr
  simp [cycleBy, hr, fetchWord_ok hf]

/-- A cycle of a running machine that cannot fetch latches OutOfBounds (R111). -/
theorem cycleBy_unfetchable (run : Instr → State → Host.Outcome State Fault Refusal) {s : State} (hr : Running s)
    (hf : ¬ Fetchable s) :
    cycleBy run s = .next { s with fault := some (.outOfBounds (if s.pc = 0xFFF then 0x1000 else s.pc)) } := by
  unfold Running at hr
  simp [cycleBy, hr, fetchWord_error hf, raise]

/-- Everything a cycle can do: stay latched, raise at the fetch, run an instruction, or be a no-op. -/
theorem cycleBy_cases (run : Instr → State → Host.Outcome State Fault Refusal) (s : State) :
    ((∃ c, s.fault = some c) ∧ cycleBy run s = .next s) ∨
      (Running s ∧ ¬ Fetchable s ∧
        cycleBy run s = .next { s with fault := some (.outOfBounds (if s.pc = 0xFFF then 0x1000 else s.pc)) }) ∨
      (∃ i, Running s ∧ Fetchable s ∧ decodeWord (nextWord s) = some i ∧ cycleBy run s = run i s) ∨
      (Running s ∧ Fetchable s ∧ decodeWord (nextWord s) = none ∧ cycleBy run s = .next (timerStep (advancePc s))) := by
  cases hfault : s.fault with
  | some c => exact .inl ⟨⟨c, rfl⟩, cycleBy_latched run hfault⟩
  | none =>
    by_cases hf : Fetchable s
    · cases hd : decodeWord (nextWord s) with
      | some i => exact .inr (.inr (.inl ⟨i, hfault, hf, rfl, by rw [cycleBy_fetchable run hfault hf]; simp [runWord, hd]⟩))
      | none =>
        exact .inr (.inr (.inr ⟨hfault, hf, rfl,
          by rw [cycleBy_fetchable run hfault hf]; simp [runWord, hd, execUnknown]⟩))
    · exact .inr (.inl ⟨hfault, hf, cycleBy_unfetchable run hfault hf⟩)

/-- A step while FAULT is set changes nothing (R119). -/
theorem step_latched {s : State} {c : Fault} (h : s.fault = some c) : step s = .next s := cycleBy_latched exec h

/-- A step of a running machine that can fetch runs the word at pc (R60). -/
theorem step_fetchable {s : State} (hr : Running s) (hf : Fetchable s) : step s = runWord exec (nextWord s) s :=
  cycleBy_fetchable exec hr hf

/-- A step of a running machine that cannot fetch latches OutOfBounds (R111). -/
theorem step_unfetchable {s : State} (hr : Running s) (hf : ¬ Fetchable s) :
    step s = .next { s with fault := some (.outOfBounds (if s.pc = 0xFFF then 0x1000 else s.pc)) } :=
  cycleBy_unfetchable exec hr hf

/-- Everything a step can do. -/
theorem step_cases (s : State) :
    ((∃ c, s.fault = some c) ∧ step s = .next s) ∨
      (Running s ∧ ¬ Fetchable s ∧
        step s = .next { s with fault := some (.outOfBounds (if s.pc = 0xFFF then 0x1000 else s.pc)) }) ∨
      (∃ i, Running s ∧ Fetchable s ∧ decodeWord (nextWord s) = some i ∧ step s = exec i s) ∨
      (Running s ∧ Fetchable s ∧ decodeWord (nextWord s) = none ∧ step s = .next (timerStep (advancePc s))) :=
  cycleBy_cases exec s

/-- Only RND depends on the random byte that a cycle is handed (R94). -/
theorem execWith_eq_exec (rand : Byte) {i : Instr} (h : readsRandom i = false) (s : State) :
    execWith rand i s = exec i s := by
  cases i <;> first | rfl | simp [readsRandom] at h

/-- Handed the free value, an instruction executes as exec of it (log entry 1). -/
theorem execWith_freeRandom (i : Instr) (s : State) : execWith (freeRandom s) i s = exec i s := by cases i <;> rfl

/-- A word that decodes to an instruction is run as it. -/
theorem runWord_some (run : Instr → State → Host.Outcome State Fault Refusal) {w : Word} {i : Instr}
    (h : decodeWord w = some i) (s : State) : runWord run w s = run i s := by simp [runWord, h]

/-- Any other word is a no-op cycle (R64). -/
theorem runWord_none (run : Instr → State → Host.Outcome State Fault Refusal) {w : Word} (h : decodeWord w = none)
    (s : State) : runWord run w s = .next (timerStep (advancePc s)) := by simp [runWord, h, execUnknown]

/-- A push below the stack's depth (R15). -/
theorem push_ok (a : Word) {s : State} (h : s.sp.val < 16) :
    push a s = .ok { s with stack := s.stack.set s.sp.val a h, sp := ⟨s.sp.val + 1, Nat.succ_lt_succ h⟩ } := by
  unfold push Config.stackDepth
  rw [dif_pos h]

/-- A push on a full stack raises StackOverflow (R113). -/
theorem push_full (a : Word) {s : State} (h : s.sp.val = 16) : push a s = .error .stackOverflow := by
  unfold push Config.stackDepth
  rw [dif_neg (by omega)]

/-- A pop of a stack that holds an entry: the last one, which stays where it is (R15). -/
theorem popPc_ok {s : State} (h : 0 < s.sp.val) :
    popPc s = .ok { s with
      sp := ⟨s.sp.val - 1, by omega⟩
      pc := s.stack[s.sp.val - 1]'(by omega) } := by
  unfold popPc
  split
  · rename_i heq
    rw [heq] at h
    exact absurd h (by simp)
  · rename_i j hj heq
    simp [heq]

/-- A pop of an empty stack raises StackUnderflow (R114). -/
theorem popPc_empty {s : State} (h : s.sp.val = 0) : popPc s = .error .stackUnderflow := by
  unfold popPc
  split
  · rfl
  · simp_all

/-- A word placed where the next cycle fetches is the word that cycle runs (log entry 12). -/
theorem step_placeWord (w : Word) {s : State} (hm : Memory.wf s.mem = true) :
    step (placeWord w s) = runWord exec w (placeWord w s) := by
  have hpc : (placeWord w s).pc.toNat ≤ 0xFFE := by
    unfold placeWord Config.memSize Config.progBase
    by_cases h : s.pc.toNat + 2 ≤ 0x1000
    · simp only [if_pos h]
      omega
    · simp only [if_neg h]
      decide
  obtain ⟨hi, lo, hbytes, hword⟩ := bytesOfWord_eq w
  have hread (a : Nat) : memByte (placeWord w s) a =
      if (placeWord w s).pc.toNat ≤ a ∧ a < (placeWord w s).pc.toNat + 2 then [hi, lo].getD (a - (placeWord w s).pc.toNat) 0
      else memByte s a := by
    have hb : (placeWord w s).mem = writeCells s.mem (placeWord w s).pc.toNat [hi, lo] := by rw [← hbytes]; rfl
    rw [memByte, hb, readCell_writeCells hm _ _ (by simp only [List.length_cons, List.length_nil, Config.memSize]; omega)]
    rfl
  rw [step_fetchable (show Running (placeWord w s) from rfl) hpc]
  have hnext : nextWord (placeWord w s) = w := by
    rw [nextWord, hread, hread, if_pos (by omega), if_pos (by omega)]
    simpa using hword
  rw [hnext]

end Sys2Proof.Machine
end

