-- ==== Sys2Proof/Laws/PerInstr.lean ====
section
/-! SUPPORT. Statements made once per constructor of Instr: every instruction's word is an instance of its own row of R49. -/

namespace Sys2Proof.Laws

/-- A word of format NNN under the mask of `n1` (R47). -/
theorem and_encodeNnn (n1 : Nibble) (nnn : Addr) : encodeNnn n1 nnn &&& 0xF000 = encodeNnn n1 0 := by
  apply BitVec.eq_of_getLsbD_eq
  intro j hj
  have hmask : (0xF000 : Word) = (0xF : Nibble) ++ (0 : Addr) := rfl
  rw [hmask]
  simp only [encodeNnn, BitVec.getLsbD_and, BitVec.getLsbD_append]
  by_cases h : j < 12
  · simp [-BitVec.reduceAllOnes, h]
  · have hn : (0xF : Nibble) = BitVec.allOnes 4 := rfl
    rw [hn]
    simp [-BitVec.reduceAllOnes, h, show j - 12 < 4 by omega]

/-- A word of format XNN under the mask of `n1` (R47). -/
theorem and_encodeXnn (n1 : Nibble) (x : RegName) (nn : Byte) : encodeXnn n1 x nn &&& 0xF000 = encodeXnn n1 0 0 := by
  have h := and_encodeNnn (fieldN1 (encodeXnn n1 x nn)) (fieldNnn (encodeXnn n1 x nn))
  rw [encodeNnn_fields, fieldN1_encodeXnn] at h
  rw [h]
  apply BitVec.eq_of_toNat_eq
  simp [toNat_encodeNnn, toNat_encodeXnn]

/-- A word of format X under the mask of `n1` and `nn` (R47). -/
theorem and_encodeX (n1 : Nibble) (x : RegName) (nn : Byte) : encodeXnn n1 x nn &&& 0xF0FF = encodeXnn n1 0 nn := by
  have hmask : (0xF0FF : Word) = (((0xF : Nibble) ++ (0 : RegName) : Byte) ++ (0xFF : Byte) : Word) := rfl
  have hones : (0xFF : Byte) = BitVec.allOnes 8 := rfl
  have hn : (0xF : Nibble) = BitVec.allOnes 4 := rfl
  apply BitVec.eq_of_getLsbD_eq
  intro j hj
  rw [hmask, hones, hn]
  simp only [encodeXnn, BitVec.getLsbD_and, BitVec.getLsbD_append]
  by_cases h : j < 8
  · simp [-BitVec.reduceAllOnes, h]
  · by_cases h2 : j - 8 < 4
    · simp [-BitVec.reduceAllOnes, h, h2]
    · simp [-BitVec.reduceAllOnes, h, h2, show j - 8 - 4 < 4 by omega]

/-- A word of format XYN under the mask of `n1` (R47). -/
theorem and_encodeXyn (n1 : Nibble) (x y : RegName) (n : Nibble) : encodeXyn n1 x y n &&& 0xF000 = encodeXyn n1 0 0 0 := by
  have h := and_encodeNnn (fieldN1 (encodeXyn n1 x y n)) (fieldNnn (encodeXyn n1 x y n))
  rw [encodeNnn_fields, fieldN1_encodeXyn] at h
  rw [h]
  apply BitVec.eq_of_toNat_eq
  simp [toNat_encodeNnn, toNat_encodeXyn]

/-- A word of format XY under the mask of `n1` and `n4` (R47). -/
theorem and_encodeXy (n1 : Nibble) (x y : RegName) (n : Nibble) : encodeXyn n1 x y n &&& 0xF00F = encodeXyn n1 0 0 n := by
  have hmask : (0xF00F : Word) = (((0xF : Nibble) ++ (0 : RegName) : Byte) ++ ((0 : RegName) ++ (0xF : Nibble) : Byte) : Word) := rfl
  have hn : (0xF : Nibble) = BitVec.allOnes 4 := rfl
  apply BitVec.eq_of_getLsbD_eq
  intro j hj
  rw [hmask, hn]
  simp only [encodeXyn, BitVec.getLsbD_and, BitVec.getLsbD_append]
  by_cases h : j < 8
  · by_cases h2 : j < 4
    · simp [-BitVec.reduceAllOnes, h, h2]
    · simp [-BitVec.reduceAllOnes, h, h2]
  · by_cases h2 : j - 8 < 4
    · simp [-BitVec.reduceAllOnes, h, h2]
    · simp [-BitVec.reduceAllOnes, h, h2, show j - 8 - 4 < 4 by omega]

/-- The instruction's row is a row of R49, and its word is an instance of it (R47, R49). -/
def EncodesInRow.Statement (i : Instr) : Prop := rowOf i ∈ opcodeRows ∧ matchesRow (encode i) (rowOf i) = true

/-- A row's instance, from the word under the row's mask. -/
theorem matchesRow_of_and {w : Word} {row : Word × Word} (h : w &&& row.1 = row.2) : matchesRow w row = true := by
  simp [matchesRow, h]

theorem EncodesInRow.cls : EncodesInRow.Statement (.cls) :=
  ⟨by simp [rowOf, opcodeRows], by decide⟩
theorem EncodesInRow.ret : EncodesInRow.Statement (.ret) :=
  ⟨by simp [rowOf, opcodeRows], by decide⟩
theorem EncodesInRow.jpAddr (nnn : Addr) : EncodesInRow.Statement (.jpAddr nnn) :=
  ⟨by simp [rowOf, opcodeRows], matchesRow_of_and (and_encodeNnn _ _)⟩
theorem EncodesInRow.callAddr (nnn : Addr) : EncodesInRow.Statement (.callAddr nnn) :=
  ⟨by simp [rowOf, opcodeRows], matchesRow_of_and (and_encodeNnn _ _)⟩
theorem EncodesInRow.seVxNn (x : RegName) (nn : Byte) : EncodesInRow.Statement (.seVxNn x nn) :=
  ⟨by simp [rowOf, opcodeRows], matchesRow_of_and (and_encodeXnn _ _ _)⟩
theorem EncodesInRow.sneVxNn (x : RegName) (nn : Byte) : EncodesInRow.Statement (.sneVxNn x nn) :=
  ⟨by simp [rowOf, opcodeRows], matchesRow_of_and (and_encodeXnn _ _ _)⟩
theorem EncodesInRow.seVxVy (x y : RegName) : EncodesInRow.Statement (.seVxVy x y) :=
  ⟨by simp [rowOf, opcodeRows], matchesRow_of_and (and_encodeXy _ _ _ _)⟩
theorem EncodesInRow.ldVxNn (x : RegName) (nn : Byte) : EncodesInRow.Statement (.ldVxNn x nn) :=
  ⟨by simp [rowOf, opcodeRows], matchesRow_of_and (and_encodeXnn _ _ _)⟩
theorem EncodesInRow.addVxNn (x : RegName) (nn : Byte) : EncodesInRow.Statement (.addVxNn x nn) :=
  ⟨by simp [rowOf, opcodeRows], matchesRow_of_and (and_encodeXnn _ _ _)⟩
theorem EncodesInRow.ldVxVy (x y : RegName) : EncodesInRow.Statement (.ldVxVy x y) :=
  ⟨by simp [rowOf, opcodeRows], matchesRow_of_and (and_encodeXy _ _ _ _)⟩
theorem EncodesInRow.orVxVy (x y : RegName) : EncodesInRow.Statement (.orVxVy x y) :=
  ⟨by simp [rowOf, opcodeRows], matchesRow_of_and (and_encodeXy _ _ _ _)⟩
theorem EncodesInRow.andVxVy (x y : RegName) : EncodesInRow.Statement (.andVxVy x y) :=
  ⟨by simp [rowOf, opcodeRows], matchesRow_of_and (and_encodeXy _ _ _ _)⟩
theorem EncodesInRow.xorVxVy (x y : RegName) : EncodesInRow.Statement (.xorVxVy x y) :=
  ⟨by simp [rowOf, opcodeRows], matchesRow_of_and (and_encodeXy _ _ _ _)⟩
theorem EncodesInRow.addVxVy (x y : RegName) : EncodesInRow.Statement (.addVxVy x y) :=
  ⟨by simp [rowOf, opcodeRows], matchesRow_of_and (and_encodeXy _ _ _ _)⟩
theorem EncodesInRow.subVxVy (x y : RegName) : EncodesInRow.Statement (.subVxVy x y) :=
  ⟨by simp [rowOf, opcodeRows], matchesRow_of_and (and_encodeXy _ _ _ _)⟩
theorem EncodesInRow.shrVx (x y : RegName) : EncodesInRow.Statement (.shrVx x y) :=
  ⟨by simp [rowOf, opcodeRows], matchesRow_of_and (and_encodeXy _ _ _ _)⟩
theorem EncodesInRow.subnVxVy (x y : RegName) : EncodesInRow.Statement (.subnVxVy x y) :=
  ⟨by simp [rowOf, opcodeRows], matchesRow_of_and (and_encodeXy _ _ _ _)⟩
theorem EncodesInRow.shlVx (x y : RegName) : EncodesInRow.Statement (.shlVx x y) :=
  ⟨by simp [rowOf, opcodeRows], matchesRow_of_and (and_encodeXy _ _ _ _)⟩
theorem EncodesInRow.sneVxVy (x y : RegName) : EncodesInRow.Statement (.sneVxVy x y) :=
  ⟨by simp [rowOf, opcodeRows], matchesRow_of_and (and_encodeXy _ _ _ _)⟩
theorem EncodesInRow.ldINnn (nnn : Addr) : EncodesInRow.Statement (.ldINnn nnn) :=
  ⟨by simp [rowOf, opcodeRows], matchesRow_of_and (and_encodeNnn _ _)⟩
theorem EncodesInRow.jpV0Addr (nnn : Addr) : EncodesInRow.Statement (.jpV0Addr nnn) :=
  ⟨by simp [rowOf, opcodeRows], matchesRow_of_and (and_encodeNnn _ _)⟩
theorem EncodesInRow.rndVxNn (x : RegName) (nn : Byte) : EncodesInRow.Statement (.rndVxNn x nn) :=
  ⟨by simp [rowOf, opcodeRows], matchesRow_of_and (and_encodeXnn _ _ _)⟩
theorem EncodesInRow.drwVxVyN (x y : RegName) (n : Nibble) : EncodesInRow.Statement (.drwVxVyN x y n) :=
  ⟨by simp [rowOf, opcodeRows], matchesRow_of_and (and_encodeXyn _ _ _ _)⟩
theorem EncodesInRow.skpVx (x : RegName) : EncodesInRow.Statement (.skpVx x) :=
  ⟨by simp [rowOf, opcodeRows], matchesRow_of_and (and_encodeX _ _ _)⟩
theorem EncodesInRow.sknpVx (x : RegName) : EncodesInRow.Statement (.sknpVx x) :=
  ⟨by simp [rowOf, opcodeRows], matchesRow_of_and (and_encodeX _ _ _)⟩
theorem EncodesInRow.ldVxDT (x : RegName) : EncodesInRow.Statement (.ldVxDT x) :=
  ⟨by simp [rowOf, opcodeRows], matchesRow_of_and (and_encodeX _ _ _)⟩
theorem EncodesInRow.ldVxK (x : RegName) : EncodesInRow.Statement (.ldVxK x) :=
  ⟨by simp [rowOf, opcodeRows], matchesRow_of_and (and_encodeX _ _ _)⟩
theorem EncodesInRow.ldDTVx (x : RegName) : EncodesInRow.Statement (.ldDTVx x) :=
  ⟨by simp [rowOf, opcodeRows], matchesRow_of_and (and_encodeX _ _ _)⟩
theorem EncodesInRow.ldSTVx (x : RegName) : EncodesInRow.Statement (.ldSTVx x) :=
  ⟨by simp [rowOf, opcodeRows], matchesRow_of_and (and_encodeX _ _ _)⟩
theorem EncodesInRow.addIVx (x : RegName) : EncodesInRow.Statement (.addIVx x) :=
  ⟨by simp [rowOf, opcodeRows], matchesRow_of_and (and_encodeX _ _ _)⟩
theorem EncodesInRow.ldFVx (x : RegName) : EncodesInRow.Statement (.ldFVx x) :=
  ⟨by simp [rowOf, opcodeRows], matchesRow_of_and (and_encodeX _ _ _)⟩
theorem EncodesInRow.ldBVx (x : RegName) : EncodesInRow.Statement (.ldBVx x) :=
  ⟨by simp [rowOf, opcodeRows], matchesRow_of_and (and_encodeX _ _ _)⟩
theorem EncodesInRow.ldMemIVx (x : RegName) : EncodesInRow.Statement (.ldMemIVx x) :=
  ⟨by simp [rowOf, opcodeRows], matchesRow_of_and (and_encodeX _ _ _)⟩
theorem EncodesInRow.ldVxMemI (x : RegName) : EncodesInRow.Statement (.ldVxMemI x) :=
  ⟨by simp [rowOf, opcodeRows], matchesRow_of_and (and_encodeX _ _ _)⟩

end Sys2Proof.Laws
end

