-- ==== Sys2Proof/Tests/Slice0.lean ====
section
/-! SUPPORT. Tests of the model: ill-formed data refused, words decoded, one step at a time against the vectors of
`95_test_vectors.md` (each named by its id), and for every statement with hypotheses a state and operands that meet them. -/

namespace Sys2Proof.Tests

open Sys2Proof.Machine

/-! ## Helpers -/

/-- The reset state with registers preset and the word placed at pc (the vectors' own convention). -/
def start (w : Nat) (regs : List (RegName × Byte)) : State :=
  (regs.foldl (fun s e => writeReg e.1 e.2 s) State.reset).withFetchWord 16 w

/-- A state with bytes stored from an address on. -/
def withBytes (a : Nat) (bytes : List Byte) (s : State) : State := { s with mem := writeCells s.mem a bytes }

/-- The keypad with exactly the listed keys down. -/
def keysDown (keys : List Nat) : Vector Bool 16 := Vector.ofFn fun k : Fin 16 => keys.contains k.val

/-- A state with pixels lit. -/
def withLit (lit : List (Fin 32 × Fin 64)) (s : State) : State :=
  { s with fb := lit.foldl (fun fb p => setPixel fb p.1 p.2 true) s.fb }

/-- The lit columns of a screen row. -/
def litColumns (s : State) (r : Fin 32) : List (Fin 64) := (List.finRange 64).filter fun c => pixel s.fb r c

/-- The state after one cycle. -/
def stepped (s : State) : State :=
  match step s with
  | .next t => t
  | .fault _ => s
  | .refused _ => s

/-! ## Well-formedness -/

/-- R126, D18: a ROM of 3585 bytes is ill-formed and refused, one of 3584 is not (Z3, Z4). An ill-formed instruction cannot be
written down: each operand's type has exactly its field's width. -/
theorem test_wellFormed_rom :
    romWellFormed (List.replicate 3585 0xAA) = false ∧ romWellFormed (List.replicate 3584 0xAA) = true ∧
      resetRom (List.replicate 3585 0xAA) State.reset = .refused .romTooLarge := by
  simp only [resetRom, romWellFormed, List.length_replicate]
  exact ⟨by decide, by decide, rfl⟩

/-! ## Decoding: each row's word, written out from the patterns of R49 with `x` = 1, `y` = 2 or as the vectors have them -/

theorem test_decode_control_flow :
    decodeTableWord 16 0b0000000011101110 = some .ret ∧
    decodeTableWord 16 0b0001101010111100 = some (.jpAddr 0xABC) ∧
    decodeTableWord 16 0b0010101010111100 = some (.callAddr 0xABC) ∧
    decodeTableWord 16 0b1011001100000000 = some (.jpV0Addr 0x300) := by decide

theorem test_decode_skips :
    decodeTableWord 16 0b0011101001000010 = some (.seVxNn 0xA 0x42) ∧
    decodeTableWord 16 0b0100101001000010 = some (.sneVxNn 0xA 0x42) ∧
    decodeTableWord 16 0b0101101010110000 = some (.seVxVy 0xA 0xB) ∧
    decodeTableWord 16 0b1001101010110000 = some (.sneVxVy 0xA 0xB) := by decide

theorem test_decode_register_alu :
    decodeTableWord 16 0b0110111101111110 = some (.ldVxNn 0xF 0x7E) ∧
    decodeTableWord 16 0b0111000100000001 = some (.addVxNn 0x1 0x01) ∧
    decodeTableWord 16 0b1000000100100000 = some (.ldVxVy 0x1 0x2) ∧
    decodeTableWord 16 0b1000000100100001 = some (.orVxVy 0x1 0x2) ∧
    decodeTableWord 16 0b1000000100100010 = some (.andVxVy 0x1 0x2) ∧
    decodeTableWord 16 0b1000000100100011 = some (.xorVxVy 0x1 0x2) ∧
    decodeTableWord 16 0b1000000100100100 = some (.addVxVy 0x1 0x2) ∧
    decodeTableWord 16 0b1000000100100101 = some (.subVxVy 0x1 0x2) ∧
    decodeTableWord 16 0b1000000100100110 = some (.shrVx 0x1 0x2) ∧
    decodeTableWord 16 0b1000000100100111 = some (.subnVxVy 0x1 0x2) ∧
    decodeTableWord 16 0b1000000100101110 = some (.shlVx 0x1 0x2) := by decide

theorem test_decode_index_random_display :
    decodeTableWord 16 0b1010111111111111 = some (.ldINnn 0xFFF) ∧
    decodeTableWord 16 0b1111001000011110 = some (.addIVx 0x2) ∧
    decodeTableWord 16 0b1111001100101001 = some (.ldFVx 0x3) ∧
    decodeTableWord 16 0b1100001100001111 = some (.rndVxNn 0x3 0x0F) ∧
    decodeTableWord 16 0b0000000011100000 = some .cls ∧
    decodeTableWord 16 0b1101000000010101 = some (.drwVxVyN 0x0 0x1 0x5) := by decide

theorem test_decode_keypad_timers_memory :
    decodeTableWord 16 0b1110010010011110 = some (.skpVx 0x4) ∧
    decodeTableWord 16 0b1110010010100001 = some (.sknpVx 0x4) ∧
    decodeTableWord 16 0b1111010100001010 = some (.ldVxK 0x5) ∧
    decodeTableWord 16 0b1111001000000111 = some (.ldVxDT 0x2) ∧
    decodeTableWord 16 0b1111001100010101 = some (.ldDTVx 0x3) ∧
    decodeTableWord 16 0b1111001100011000 = some (.ldSTVx 0x3) ∧
    decodeTableWord 16 0b1111001001010101 = some (.ldMemIVx 0x2) ∧
    decodeTableWord 16 0b1111001001100101 = some (.ldVxMemI 0x2) ∧
    decodeTableWord 16 0b1111001000110011 = some (.ldBVx 0x2) := by decide

/-- R51's words next to defined ones are refused: no neighbour takes them (K10, K11, E9, P8). -/
theorem test_decode_unknown :
    decodeWord 0x0000 = none ∧ decodeWord 0x00E1 = none ∧ decodeWord 0x5AB1 = none ∧ decodeWord 0x8128 = none ∧
      decodeWord 0x812F = none ∧ decodeWord 0x9AB5 = none ∧ decodeWord 0xE49F = none ∧ decodeWord 0xF266 = none ∧
      decodeTableWord 24 0x00E0 = none := by decide

/-- R45: the first byte in memory is the more significant one; a single byte holds no instruction. -/
theorem test_decode_bytes :
    decodeBytes [0x60, 0x05, 0x70] = .ok (.ldVxNn 0x0 0x05, [0x70]) ∧ decodeBytes [0x60] = .error .truncated ∧
      decodeBytes [0x00, 0x00] = .error (.unknownOpcode 0x0000) := by decide

/-! ## The cycle -/

/-- E1 and E2: the last fetchable address, then the fatal fetch, with no timer step. -/
theorem test_step_at_the_top_of_memory :
    let s := withBytes 0xFFE [0x6A, 0x77] { State.reset with pc := 0xFFE, dt := 5 }
    readReg (stepped s) 0xA = 0x77 ∧ (stepped s).pc = 0x1000 ∧ (stepped s).dt = 4 ∧ (stepped s).fault = none ∧
      (stepped (stepped s)).fault = some (.outOfBounds 0x1000) ∧ (stepped (stepped s)).pc = 0x1000 ∧
      (stepped (stepped s)).dt = 4 := by decide

/-- E3 and E4. -/
theorem test_step_fetch_faults :
    (stepped { State.reset with pc := 0xFFF, dt := 5 }).fault = some (.outOfBounds 0x1000) ∧
      (stepped { State.reset with pc := 0xFFF, dt := 5 }).pc = 0xFFF ∧
      (stepped { State.reset with pc := 0xFFF, dt := 5 }).dt = 5 ∧
      (stepped { State.reset with pc := 0x10FE }).fault = some (.outOfBounds 0x10FE) := by decide

/-- E5: an odd pc. -/
theorem test_step_odd_pc :
    let s := withBytes 0x201 [0x6A, 0x77] { State.reset with pc := 0x201 }
    readReg (stepped s) 0xA = 0x77 ∧ (stepped s).pc = 0x203 := by decide

/-- E7 to E9: an unknown word is a no-op with a timer step. -/
theorem test_step_unknown_word :
    (stepped { State.reset with dt := 1 }).dt = 0 ∧ (stepped { State.reset with dt := 1 }).pc = 0x202 ∧
      (stepped { State.reset with st := 0xFF }).st = 0xFE ∧ (stepped { State.reset with st := 0xFF }).dt = 0 ∧
      (stepped (start 0x8128 [(1, 1), (2, 2)])).v = (start 0x8128 [(1, 1), (2, 2)]).v := by decide

/-- E10: a latched machine changes nothing. -/
theorem test_step_latched :
    stepped { State.reset with fault := some .stackOverflow, dt := 9 } =
      { State.reset with fault := some .stackOverflow, dt := 9 } := rfl

/-! ## Control flow -/

/-- C1. -/
theorem test_jp : (stepped (start 0x1ABC [])).pc = 0xABC := by decide

/-- C4 and C5: the last free stack entry, then the full stack. -/
theorem test_call :
    (stepped { start 0x2ABC [] with sp := 15 }).pc = 0xABC ∧ (stepped { start 0x2ABC [] with sp := 15 }).sp = 16 ∧
      (stepped { start 0x2ABC [] with sp := 15 }).stack[15] = 0x0202 ∧
      (stepped { start 0x2ABC [] with sp := 16 }).fault = some .stackOverflow ∧
      (stepped { start 0x2ABC [] with sp := 16 }).pc = 0x200 := by decide

/-- C6 and C7: a return, and one on an empty stack. -/
theorem test_ret :
    (stepped { start 0x00EE [] with sp := 1, stack := State.reset.stack.set 0 0x0456 }).pc = 0x456 ∧
      (stepped { start 0x00EE [] with sp := 1, stack := State.reset.stack.set 0 0x0456 }).stack[0] = 0x0456 ∧
      (stepped { start 0x00EE [] with sp := 0, stack := State.reset.stack.set 0 0x0456 }).fault = some .stackUnderflow ∧
      (stepped { start 0x00EE [] with sp := 0, stack := State.reset.stack.set 0 0x0456 }).pc = 0x200 := by decide

/-- C9 and C10: no wrap at 12 bits, and V0 whatever bits 11:8 are. -/
theorem test_jpV0 :
    (stepped (start 0xBFFF [(0, 0xFF)])).pc = 0x10FE ∧ (stepped (start 0xB2FF [(0, 0x01), (2, 0x80)])).pc = 0x300 := by
  decide

/-! ## Conditional skip -/

/-- K1 to K4. -/
theorem test_skip_immediate :
    (stepped (start 0x3A42 [(0xA, 0x42)])).pc = 0x204 ∧ (stepped (start 0x3A42 [(0xA, 0x43)])).pc = 0x202 ∧
      (stepped (start 0x4A42 [(0xA, 0x42)])).pc = 0x202 ∧ (stepped (start 0x4A42 [(0xA, 0x43)])).pc = 0x204 := by decide

/-- K5, K6, K8, K9. -/
theorem test_skip_register :
    (stepped (start 0x5AB0 [(0xA, 9), (0xB, 9)])).pc = 0x204 ∧ (stepped (start 0x5AB0 [(0xA, 9), (0xB, 8)])).pc = 0x202 ∧
      (stepped (start 0x9AB0 [(0xA, 9), (0xB, 9)])).pc = 0x202 ∧
      (stepped (start 0x9AB0 [(0xA, 9), (0xB, 8)])).pc = 0x204 := by decide

/-! ## Register load, arithmetic, logic, shift -/

/-- A1 to A4. -/
theorem test_loads_and_add_immediate :
    readReg (stepped (start 0x6F7E [])) 0xF = 0x7E ∧
      readReg (stepped (start 0x7101 [(1, 0xFF), (0xF, 0x55)])) 1 = 0x00 ∧
      readReg (stepped (start 0x7101 [(1, 0xFF), (0xF, 0x55)])) 0xF = 0x55 ∧
      readReg (stepped (start 0x7F01 [(0xF, 0xFF)])) 0xF = 0x00 ∧
      readReg (stepped (start 0x8120 [(1, 1), (2, 0x9C)])) 1 = 0x9C := by decide

/-- A5 to A7. -/
theorem test_bitwise :
    readReg (stepped (start 0x8121 [(1, 0xF0), (2, 0x0F), (0xF, 0x55)])) 1 = 0xFF ∧
      readReg (stepped (start 0x8122 [(1, 0xF0), (2, 0x3C), (0xF, 0x55)])) 1 = 0x30 ∧
      readReg (stepped (start 0x8123 [(1, 0xF0), (2, 0x3C), (0xF, 0x55)])) 1 = 0xCC ∧
      readReg (stepped (start 0x8123 [(1, 0xF0), (2, 0x3C), (0xF, 0x55)])) 0xF = 0x55 := by decide

/-- A11 and A12: sums of 255 and 256. -/
theorem test_add_carry :
    readReg (stepped (start 0x8124 [(1, 0xFF), (2, 0x00)])) 0xF = 0 ∧
      readReg (stepped (start 0x8124 [(1, 0xFF), (2, 0x01)])) 0xF = 1 ∧
      readReg (stepped (start 0x8124 [(1, 0xFF), (2, 0x01)])) 1 = 0x00 := by decide

/-- A15 and A17: VF as destination and as operand. -/
theorem test_add_vf :
    readReg (stepped (start 0x8F14 [(0xF, 0xF0), (1, 0x20)])) 0xF = 0x01 ∧
      readReg (stepped (start 0x81F4 [(0xF, 0x07), (1, 0xFE)])) 1 = 0x05 ∧
      readReg (stepped (start 0x81F4 [(0xF, 0x07), (1, 0xFE)])) 0xF = 1 := by decide

/-- A18, A20, A23. -/
theorem test_sub :
    readReg (stepped (start 0x8125 [(1, 5), (2, 10)])) 1 = 0xFB ∧ readReg (stepped (start 0x8125 [(1, 5), (2, 10)])) 0xF = 0 ∧
      readReg (stepped (start 0x8125 [(1, 7), (2, 7), (0xF, 1)])) 0xF = 0 ∧
      readReg (stepped (start 0x8F15 [(0xF, 9), (1, 3)])) 0xF = 1 := by decide

/-- A26, A27, A28. -/
theorem test_subn :
    readReg (stepped (start 0x8127 [(1, 5), (2, 10)])) 1 = 5 ∧ readReg (stepped (start 0x8127 [(1, 5), (2, 10)])) 0xF = 1 ∧
      readReg (stepped (start 0x8127 [(1, 10), (2, 5)])) 1 = 0xFB ∧
      readReg (stepped (start 0x8127 [(1, 7), (2, 7), (0xF, 1)])) 0xF = 0 := by decide

/-- A30, A32, A33. -/
theorem test_shr :
    readReg (stepped (start 0x8106 [(1, 0x03)])) 1 = 0x01 ∧ readReg (stepped (start 0x8106 [(1, 0x03)])) 0xF = 1 ∧
      readReg (stepped (start 0x8126 [(1, 0x04), (2, 0xFF), (0xF, 1)])) 1 = 0x02 ∧
      readReg (stepped (start 0x8F06 [(0xF, 0x03)])) 0xF = 1 := by decide

/-- A35, A37, A39. -/
theorem test_shl :
    readReg (stepped (start 0x810E [(1, 0x81)])) 1 = 0x02 ∧ readReg (stepped (start 0x810E [(1, 0x81)])) 0xF = 1 ∧
      readReg (stepped (start 0x812E [(1, 0x80), (2, 0x01)])) 2 = 0x01 ∧
      readReg (stepped (start 0x8F0E [(0xF, 0x41)])) 0xF = 0 := by decide

/-! ## Index register -/

/-- I1, I3, I4. -/
theorem test_index :
    (stepped (start 0xAFFF [])).idx = 0x0FFF ∧
      (stepped { start 0xF21E [(2, 1)] with idx := 0x0FFF }).idx = 0x1000 ∧
      (stepped { start 0xF21E [(2, 1)] with idx := 0xFFFF }).idx = 0x0000 ∧
      readReg (stepped { start 0xF21E [(2, 1)] with idx := 0xFFFF }) 0xF = 0 := by decide

/-- I7, I10, I11: no mask of the digit. -/
theorem test_glyph_address :
    (stepped (start 0xF329 [(3, 0x0A)])).idx = 0x0082 ∧ (stepped (start 0xF329 [(3, 0x1A)])).idx = 0x00D2 ∧
      (stepped (start 0xF329 [(3, 0xFF)])).idx = 0x054B := by decide

/-! ## Random -/

/-- N3, N4, N6: the mask, for the vectors' random bytes. -/
theorem test_random_mask :
    readReg (randomMasked 0xB7 0x3 0x0F State.reset) 0x3 = 0x07 ∧ readReg (randomMasked 0xB7 0x3 0xF0 State.reset) 0x3 = 0xB0 ∧
      readReg (randomMasked 0xFF 0xF 0x55 State.reset) 0xF = 0x55 := by decide

/-- N2 to N4 by the host's own cycle: the byte it hands in, masked. -/
theorem test_cycle_random :
    (∃ t, cycleWith 0xB7 (start 0xC3FF [(3, 0xEE)]) = .next t ∧ readReg t 3 = 0xB7) ∧
      (∃ t, cycleWith 0xB7 (start 0xC30F [(3, 0xEE)]) = .next t ∧ readReg t 3 = 0x07) ∧
      readReg (afterMove (.cycle 0xB7) (start 0xC3F0 [(3, 0xEE)])) 3 = 0xB0 :=
  ⟨⟨_, rfl, by decide⟩, ⟨_, rfl, by decide⟩, by decide⟩

/-- N1: with nn = 0 the result is 0, whatever the random byte. -/
theorem test_rnd_zero_mask : readReg (stepped (start 0xC300 [(3, 0xEE)])) 0x3 = 0x00 := by
  show Config.randomByte 0 &&& 0x00 = 0x00
  simp

/-! ## Display -/

/-- D2: horizontal wrap. -/
theorem test_drw_wraps :
    litColumns (stepped (withBytes 0x300 [0xFF] { start 0xD011 [(0, 60)] with idx := 0x300 })) 0 =
      [0, 1, 2, 3, 60, 61, 62, 63] := by decide

/-- D3: vertical wrap, and D6: a collision clears its pixel. -/
theorem test_drw_wraps_down_and_collides :
    litColumns (stepped (withBytes 0x300 [0x80, 0x40] { start 0xD012 [(1, 31)] with idx := 0x300 })) 0 = [1] ∧
      litColumns (stepped (withLit [(0, 1)] (withBytes 0x300 [0xC0] { start 0xD011 [] with idx := 0x300 }))) 0 = [0] ∧
      readReg (stepped (withLit [(0, 1)] (withBytes 0x300 [0xC0] { start 0xD011 [] with idx := 0x300 }))) 0xF = 1 := by
  decide

/-- D18: CLS, which writes no flag. -/
theorem test_cls :
    pixel (stepped (withLit [(0, 0), (31, 63)] (start 0x00E0 [(0xF, 1)]))).fb 0 0 = false ∧
      pixel (stepped (withLit [(0, 0), (31, 63)] (start 0x00E0 [(0xF, 1)]))).fb 31 63 = false ∧
      readReg (stepped (withLit [(0, 0), (31, 63)] (start 0x00E0 [(0xF, 1)]))) 0xF = 1 := by decide

/-! ## Keypad -/

/-- P3, P4, P7, P6. -/
theorem test_skip_key :
    (stepped { start 0xE49E [(4, 0x17)] with keys := keysDown [7] }).pc = 0x204 ∧
      (stepped { start 0xE49E [(4, 0xF7)] with keys := keysDown [] }).pc = 0x202 ∧
      (stepped { start 0xE4A1 [(4, 0x17)] with keys := keysDown [7] }).pc = 0x202 ∧
      (stepped { start 0xE4A1 [(4, 0x07)] with keys := keysDown [6] }).pc = 0x204 := by decide

/-- P11 and P13: the highest key; the wait, during which the timers run. -/
theorem test_key_wait :
    readReg (stepped { start 0xF50A [(5, 0xEE)] with keys := keysDown [3, 9] }) 5 = 0x09 ∧
      (stepped { start 0xF50A [(5, 0xEE)] with dt := 5, st := 1 }).pc = 0x200 ∧
      (stepped { start 0xF50A [(5, 0xEE)] with dt := 5, st := 1 }).dt = 4 ∧
      (stepped { start 0xF50A [(5, 0xEE)] with dt := 5, st := 1 }).st = 0 := by decide

/-! ## Timers -/

/-- T1, T4, T7, T8. -/
theorem test_timers :
    readReg (stepped { start 0xF207 [] with dt := 0x10 }) 2 = 0x10 ∧ (stepped { start 0xF207 [] with dt := 0x10 }).dt = 0x0F ∧
      (stepped (start 0xF315 [(3, 0x3C)])).dt = 0x3B ∧
      (stepped { start 0xF318 [(3, 5)] with dt := 9 }).st = 4 ∧ sound (stepped (start 0xF318 [(3, 5)])) = true ∧
      sound (stepped (start 0xF318 [(3, 1)])) = false := by decide

/-! ## Memory block transfer and BCD -/

/-- M1: V3 is not stored and I is unchanged. -/
theorem test_store_registers :
    let t := stepped { start 0xF255 [(0, 0x11), (1, 0x22), (2, 0x33), (3, 0x44)] with idx := 0x300 }
    readCells t.mem 0x300 4 = [0x11, 0x22, 0x33, 0x00] ∧ t.idx = 0x300 := by decide

/-- M6: nothing is stored when one byte lies outside memory. -/
theorem test_store_registers_fault :
    let t := stepped { start 0xFF55 [(0xF, 0x99)] with idx := 0xFF1 }
    t.fault = some (.outOfBounds 0x1000) ∧ memByte t 0xFFF = 0x00 ∧ t.pc = 0x200 := by decide

/-- M7 and M8. -/
theorem test_load_registers :
    (stepped (withBytes 0x300 [0x11, 0x22, 0x33, 0x44] { start 0xF265 [(3, 0x77)] with idx := 0x300 })).v.toList.take 4 =
        [0x11, 0x22, 0x33, 0x77] ∧
      (stepped { start 0xF165 [(0, 1), (1, 2)] with idx := 0xFFF }).fault = some (.outOfBounds 0x1000) ∧
      readReg (stepped { start 0xF165 [(0, 1), (1, 2)] with idx := 0xFFF }) 0 = 1 := by decide

/-- M9: reading the font. -/
theorem test_load_registers_font : readReg (stepped { start 0xF165 [] with idx := 0x050 }) 0 = 0xF0 := by decide

/-- M10 and M16. -/
theorem test_store_digits :
    readCells (stepped { start 0xF233 [(2, 255)] with idx := 0x300 }).mem 0x300 3 = [2, 5, 5] ∧
      readCells (stepped { start 0xF233 [(2, 123)] with idx := 0xFFD }).mem 0xFFD 3 = [1, 2, 3] := by decide

/-- M18: the lowest offending address is I itself. -/
theorem test_store_digits_fault :
    (stepped { start 0xF233 [(2, 123)] with idx := 0xFFFF }).fault = some (.outOfBounds 0xFFFF) := by decide

/-! ## Reset and load -/

/-- Z1: the edges of the font and of the program area. -/
theorem test_reset_memory :
    readCells State.reset.mem 0x050 5 = [0xF0, 0x90, 0x90, 0x90, 0xF0] ∧
      readCells State.reset.mem 0x09B 5 = [0xF0, 0x80, 0xF0, 0x80, 0x80] ∧ memByte State.reset 0x04F = 0 ∧
      memByte State.reset 0x0A0 = 0 ∧ memByte State.reset 0x200 = 0 := by decide

/-- Program A: the source's own scenario (S11, corrected by C6), loaded by RESET. -/
theorem test_program_a_first_cycles :
    let s := loaded [0x60, 0x05, 0x70, 0x03, 0x00, 0x00] State.reset
    readReg (stepped (stepped s)) 0 = 8 ∧ (stepped (stepped s)).pc = 0x204 := by decide

/-- A word placed after reset runs as the first instruction, also with a pc that nothing can be fetched from. -/
theorem test_placed_word_runs :
    readReg (stepped (State.reset.withFetchWord 16 0x6105)) 1 = 0x05 ∧
      readReg (stepped ({ State.reset with pc := 0xFFF }.withFetchWord 16 0x6105)) 1 = 0x05 := by decide

/-! ## Witnesses: for each statement with hypotheses, a state and operands that meet them all, at the edges of each clause -/

/-- A running state on the edges of the invariant: pc = 0x10FE, a stack entry 0x1000, and one listed byte of memory. -/
def edge : State := { State.reset with pc := 0x10FE, stack := State.reset.stack.set 3 0x1000, sp := 4, mem := [(0xFFF, 0xAB)] }

/-- An instruction is well-formed, and the word it is decoded from, with one row that matches it. -/
theorem test_witness_encoding :
    Instr.wellFormed (.subnVxVy 0x1 0xF) = true ∧ decodeWord 0x81F7 = some (.subnVxVy 0x1 0xF) ∧
      (0xF00F, 0x8007) ∈ opcodeRows ∧ matchesRow 0x81F7 (0xF00F, 0x8007) = true := by decide

/-- StepRunsDecodedInstruction, at the last fetchable address. -/
theorem test_witness_stepRuns :
    let s := withBytes 0xFFE [0x6A, 0x77] { State.reset with pc := 0xFFE }
    s.fault = none ∧ s.pc.toNat ≤ 0xFFE ∧
      decodeBytes [memByte s s.pc.toNat, memByte s (s.pc.toNat + 1)] = .ok (.ldVxNn 0xA 0x77, []) := by decide

/-- UnknownWordIsNoOp, at the last fetchable address. -/
theorem test_witness_unknownWord :
    let s := { State.reset with pc := 0xFFE }
    s.fault = none ∧ s.pc.toNat ≤ 0xFFE ∧ decodeWord (nextWord s) = none := by decide

/-- FetchOutOfBoundsIsLatched, at the first address of each branch. -/
theorem test_witness_fetchOutOfBounds :
    ({ State.reset with pc := 0xFFF }).fault = none ∧ 0xFFE < ({ State.reset with pc := 0xFFF }).pc.toNat ∧
      0xFFE < ({ State.reset with pc := 0x1000 }).pc.toNat := by decide

/-- TimersStepInEveryCycle, and the running case of OnlyTheListedCausesRaise: a running machine steps to a running one,
setting a timer. -/
theorem test_witness_timersStep :
    Running (start 0xF315 [(3, 1)]) ∧ step (start 0xF315 [(3, 1)]) = .next (stepped (start 0xF315 [(3, 1)])) ∧
      Running (stepped (start 0xF315 [(3, 1)])) := ⟨rfl, rfl, rfl⟩

/-- The run of DelayTimerReadsBackLessElapsedCycles: DT is set to 3, an unknown word passes, and DT is read. -/
def delayRun : Nat → State
  | 0 => withBytes 0x204 [0xF3, 0x07] (start 0xF215 [(2, 3)])
  | j + 1 => stepped (delayRun j)

/-- DelayTimerReadsBackLessElapsedCycles, with k = 2. -/
theorem test_witness_delayTimer :
    exec (.ldDTVx 0x2) (delayRun 0) = .next (delayRun 1) ∧
      (∀ j, 1 ≤ j → j < 2 → Running (delayRun j) ∧ Running (delayRun (j + 1)) ∧
        step (delayRun j) = .next (delayRun (j + 1)) ∧ ∀ z, decodeWord (nextWord (delayRun j)) ≠ some (.ldDTVx z)) ∧
      exec (.ldVxDT 0x3) (delayRun 2) = .next (delayRun 3) ∧ readReg (delayRun 3) 0x3 = 1 := by
  refine ⟨rfl, fun j h1 h2 => ?_, rfl, by decide⟩
  have hj : j = 1 := by omega
  subst hj
  have hnone : decodeWord (nextWord (delayRun 1)) = none := by decide
  exact ⟨rfl, rfl, rfl, fun z hz => by simp [hnone] at hz⟩

/-- JumpSetsPc and JumpWithOffsetAddsV0: running machines that jump to where nothing can be fetched, at the edges. -/
theorem test_witness_jumps :
    Running State.reset ∧ (0xFFF : Addr).toNat = 0xFFF ∧
      (∃ t, exec (.jpV0Addr 0xFFF) (start 0xBFFF [(0, 0xFF)]) = .next t ∧ 0xFFE < t.pc.toNat) ∧
      (∃ t, exec (.jpV0Addr 0xF00) (start 0xBF00 [(0, 0xFF)]) = .next t ∧ t.pc.toNat = 0xFFF) :=
  ⟨rfl, by decide, ⟨_, rfl, by decide⟩, ⟨_, rfl, by decide⟩⟩

/-- The last clause of SkipOnRegister. -/
theorem test_witness_skipRegister : (0x1 : Nibble) ≠ 0 ∧ decodeWord (encodeXyn 0x5 0xA 0xB 0x1) = none := by decide

/-- The run of SoundTimerDrivesSound: after ST is set to 3 and counted once, unknown words pass. -/
def soundRun : Nat → State
  | 0 => stepped (start 0xF318 [(3, 3)])
  | j + 1 => stepped (soundRun j)

/-- SoundTimerDrivesSound: SOUND at the first two boundaries, and not at the third. -/
theorem test_witness_sound :
    exec (.ldSTVx 0x3) (start 0xF318 [(3, 3)]) = .next (soundRun 0) ∧
      (∀ j, j < 2 → Running (soundRun j) ∧ Running (soundRun (j + 1)) ∧ step (soundRun j) = .next (soundRun (j + 1)) ∧
        ∀ z, decodeWord (nextWord (soundRun j)) ≠ some (.ldSTVx z)) ∧
      sound (soundRun 0) = true ∧ sound (soundRun 1) = true ∧ sound (soundRun 2) = false := by
  refine ⟨rfl, fun j h => ?_, by decide, by decide, by decide⟩
  have hj : j = 0 ∨ j = 1 := by omega
  rcases hj with rfl | rfl
  · have hnone : decodeWord (nextWord (soundRun 0)) = none := by decide
    exact ⟨rfl, rfl, rfl, fun z hz => by simp [hnone] at hz⟩
  · have hnone : decodeWord (nextWord (soundRun 1)) = none := by decide
    exact ⟨rfl, rfl, rfl, fun z hz => by simp [hnone] at hz⟩

/-- The raising cases of OnlyTheListedCausesRaise, and FatalConditionIsPrecise: each cause once. -/
theorem test_witness_causes :
    Running edge ∧ step edge = .next (stepped edge) ∧ nextFault edge = some (.outOfBounds 0x10FE) ∧
      (stepped { start 0x2ABC [] with sp := 16 }).fault = some .stackOverflow ∧
      (stepped (start 0x00EE [])).fault = some .stackUnderflow ∧
      (stepped { start 0xD012 [] with idx := 0xFFF }).fault = some (.outOfBounds 0x1000) ∧
      (stepped { start 0xF055 [] with idx := 0x1000 }).fault = some (.outOfBounds 0x1000) ∧
      (stepped { start 0xF165 [] with idx := 0xFFF }).fault = some (.outOfBounds 0x1000) ∧
      (stepped { start 0xF033 [] with idx := 0xFFE }).fault = some (.outOfBounds 0x1000) := by
  exact ⟨rfl, rfl, by decide⟩

/-- DataAccessIsCheckedBeforeAnyEffect, at the edges of both clauses. -/
theorem test_witness_dataAccess :
    dataCount (.drwVxVyN 0 1 0) = some 0 ∧ dataCount (.ldBVx 2) = some 3 ∧ 0 < 3 ∧
      0xFFF < (0xFFE : Word).toNat + (3 - 1) ∧ (0xFFD : Word).toNat + (3 - 1) ≤ 0xFFF ∧
      dataCount (.ldMemIVx 0xF) = some 16 ∧ dataCount (.ldVxMemI 0x0) = some 1 := by decide

/-- LatchedMachineIsStuckUntilReset: a latched state, and a reset that starts it again. -/
theorem test_witness_latched :
    ({ edge with fault := some .stackUnderflow }).fault = some .stackUnderflow ∧
      (afterMove (.reset [0x60, 0x05]) { edge with fault := some .stackUnderflow }).fault = none := by decide

/-- The two clauses of CallPushesAdvancedPcAndJumps and of ReturnPopsPc, each at its edges, the round trip among them. -/
theorem test_witness_stack :
    ({ State.reset with sp := 15 }).sp.val < 16 ∧ ({ State.reset with sp := 16 }).sp.val = 16 ∧
      0 < ({ State.reset with sp := 1 }).sp.val ∧ State.reset.sp.val = 0 ∧
      ({ State.reset with pc := 0xFFE }).pc.toNat ≤ 0xFFE ∧
      (stepped (withBytes 0xABC [0x00, 0xEE] { start 0x2ABC [] with sp := 15 })).sp.val = 16 ∧
      (stepped (stepped (withBytes 0xABC [0x00, 0xEE] { start 0x2ABC [] with sp := 15 }))).pc = 0x202 := by decide

/-- OnlyFlagWritersChangeVfImplicitly: VF before and after, for a flag writer, an instruction that names another register, and
one that writes none. -/
theorem test_witness_vf :
    (∃ t, exec (.addVxVy 1 2) (start 0x8124 [(1, 0xFF), (2, 1)]) = .next t ∧ Running t) ∧
      (∃ t, exec (.ldVxMemI 0xE) (start 0xFE65 [(0xF, 3)]) = .next t ∧ Running t) ∧
      (∃ t, exec (.jpAddr 0xABC) (start 0x1ABC [(0xF, 3)]) = .next t ∧ Running t) ∧ Running (start 0x8124 []) :=
  ⟨⟨_, rfl, rfl⟩, ⟨_, rfl, rfl⟩, ⟨_, rfl, rfl⟩, rfl⟩

/-- The clauses of DrawTogglesSpriteAndReportsCollision: no sprite byte, the last byte of memory, a byte above it at either side
of 0xFFF, a collision and none (D8, D11 to D13). -/
theorem test_witness_draw :
    (0x0 : Nibble).toNat = 0 ∧ (0xFFF : Word).toNat + ((0x1 : Nibble).toNat - 1) ≤ 0xFFF ∧ 0 < (0x2 : Nibble).toNat ∧
      0xFFF < (0xFFF : Word).toNat + ((0x2 : Nibble).toNat - 1) ∧ 0xFFF < (0x1000 : Word).toNat + ((0x1 : Nibble).toNat - 1) ∧
      (stepped { start 0xD010 [(0xF, 1)] with idx := 0xFFFF }).fault = none ∧
      readReg (stepped { start 0xD010 [(0xF, 1)] with idx := 0xFFFF }) 0xF = 0 ∧
      (stepped { start 0xD011 [] with idx := 0x1000 }).fault = some (.outOfBounds 0x1000) ∧
      (stepped { start 0xD011 [] with idx := 0xFFFF }).fault = some (.outOfBounds 0xFFFF) ∧
      spriteAt (withLit [(0, 0)] (withBytes 0x300 [0x80] { start 0xD011 [] with idx := 0x300 })) 0 1 1 0 0 = true ∧
      spriteAt (withLit [(0, 0)] (withBytes 0x300 [0x80] { start 0xD011 [] with idx := 0x300 })) 0 1 1 0 1 = false := by decide

/-- DrawingTwiceRestoresTheScreen: two draws, in bounds and out of them (D9, D10). -/
theorem test_witness_drawTwice :
    (0x0 : RegName) ≠ 0xF ∧ (0x1 : RegName) ≠ 0xF ∧
      (∃ t u, exec (.drwVxVyN 0 1 1) (withBytes 0xFFF [0x80] { State.reset with idx := 0xFFF }) = .next t ∧
        exec (.drwVxVyN 0 1 1) t = .next u) ∧
      (∃ t u, exec (.drwVxVyN 0 1 1) { State.reset with idx := 0x1000 } = .next t ∧ exec (.drwVxVyN 0 1 1) t = .next u) ∧
      (0xFFF : Word).toNat + ((0x1 : Nibble).toNat - 1) ≤ 0xFFF :=
  ⟨by decide, by decide, ⟨_, _, rfl, rfl⟩, ⟨_, _, rfl, rfl⟩, by decide⟩

/-- The two clauses of KeyWaitTakesTheHighestKey: the highest of all 16 keys, key 0 alone, and no key (P9, P10, P12). -/
theorem test_witness_keyWait :
    ((keysDown (List.range 16))[(15 : Fin 16)] = true ∧ ∀ j : Fin 16, 15 < j → (keysDown (List.range 16))[j] = false) ∧
      ((keysDown [0])[(0 : Fin 16)] = true ∧ ∀ j : Fin 16, 0 < j → (keysDown [0])[j] = false) ∧
      ∀ k : Fin 16, (keysDown [])[k] = false := by decide

/-- The clauses of StoreRegistersAtIndex, LoadRegistersFromIndex and StoreDecimalDigits: the last address that fits, the first
that does not, and memory in its canonical form, a register within the transfer and one above it, an address on either side. -/
theorem test_witness_blockTransfer :
    (0xFF0 : Word).toNat + (0xF : RegName).toNat ≤ 0xFFF ∧ 0xFFF < (0xFF1 : Word).toNat + (0xF : RegName).toNat ∧
      (0xFFD : Word).toNat + 2 ≤ 0xFFF ∧ 0xFFF < (0xFFE : Word).toNat + 2 ∧ Memory.wf edge.mem = true ∧
      (0x2 : RegName).toNat ≤ (0x2 : RegName).toNat ∧ ¬ (0x3 : RegName).toNat ≤ (0x2 : RegName).toNat ∧
      (0x2FF < (0x300 : Word).toNat ∨ (0x300 : Word).toNat + (0x2 : RegName).toNat < 0x2FF) ∧
      (0x303 < (0x300 : Word).toNat ∨ (0x300 : Word).toNat + (0x2 : RegName).toNat < 0x303) := by decide

/-- LoadUndoesStore: a store that reaches the top of memory, and the load after it. -/
theorem test_witness_storeThenLoad :
    let s := { start 0xFF55 [(0, 0xAB), (0xF, 0x99)] with idx := 0xFF0 }
    Memory.wf s.mem = true ∧ s.idx.toNat + (0xF : RegName).toNat ≤ 0xFFF ∧
      ∃ t w, exec (.ldMemIVx 0xF) s = .next t ∧ t.mem = t.mem ∧ t.idx = s.idx ∧ exec (.ldVxMemI 0xF) t = .next w :=
  ⟨by decide, by decide, _, _, rfl, rfl, rfl, rfl⟩

/-- The state after a meaning has run from a state. -/
def executed (i : Instr) (s : State) : State :=
  match exec i s with
  | .next t => t
  | .fault _ => s
  | .refused _ => s

/-- The clauses of StoreIsSeenByTheNextFetch, each with a fetch at the top of memory: a word stored whole (program F's) and one
of which only the second byte was stored, by LD [I],Vx; one of which only the first digit was stored, by LD B,Vx. -/
theorem test_witness_storeThenFetch :
    let s := { start 0xF155 [(0, 0x62), (1, 0x77)] with idx := 0xFFE }
    let d := { start 0xF233 [(2, 255)] with idx := 0xFFD }
    Memory.wf s.mem = true ∧ s.idx.toNat + (0x1 : RegName).toNat ≤ 0xFFF ∧
      exec (.ldMemIVx 0x1) s = .next (executed (.ldMemIVx 0x1) s) ∧
      fetchWord { executed (.ldMemIVx 0x1) s with pc := 0xFFE } = .ok 0x6277 ∧
      fetchWord { executed (.ldMemIVx 0x1) s with pc := 0xFFD } = .ok 0x0062 ∧
      Memory.wf d.mem = true ∧ d.idx.toNat + 2 ≤ 0xFFF ∧ exec (.ldBVx 0x2) d = .next (executed (.ldBVx 0x2) d) ∧
      fetchWord { executed (.ldBVx 0x2) d with pc := 0xFFC } = .ok 0x0002 ∧
      fetchWord { executed (.ldBVx 0x2) d with pc := 0xFFE } = .ok 0x0505 :=
  ⟨by decide, by decide, rfl, by decide, by decide, by decide, by decide, rfl, by decide, by decide⟩

/-- The two clauses of ResetBuildsTheResetState: the largest ROM and one byte more. -/
theorem test_witness_reset :
    (List.replicate 3584 (0xAA : Byte)).length ≤ 3584 ∧ 3584 < (List.replicate 3585 (0xAA : Byte)).length := by
  simp only [List.length_replicate]
  decide

/-- InvariantKeptByEveryStep and InvariantHoldsAlongEveryHostRun: a state on the invariant's edges, and its step. -/
theorem test_witness_invariant : Inv edge ∧ step edge = .next (stepped edge) := by
  refine ⟨⟨by decide, by decide, ?_, fun a h => by simp [edge, State.reset] at h⟩, rfl⟩
  have hall : ∀ j : Fin 16, edge.stack[j].toNat ≤ 0x1000 := by decide
  exact fun j h => hall ⟨j, h⟩

/-- OnlyTheListedInstructionsWrite: for each piece of state an instruction that changes it. -/
theorem test_witness_writes :
    (stepped (withLit [(0, 0)] (start 0x00E0 []))).fb ≠ (withLit [(0, 0)] (start 0x00E0 [])).fb ∧
      (stepped { start 0xF055 [(0, 1)] with idx := 0x300 }).mem ≠ (start 0xF055 [(0, 1)]).mem ∧
      (stepped (start 0x2ABC [])).stack ≠ (start 0x2ABC []).stack ∧ (stepped (start 0x2ABC [])).sp ≠ (start 0x2ABC []).sp ∧
      (stepped (start 0xAFFF [])).idx ≠ (start 0xAFFF []).idx ∧
      (stepped (start 0xC300 [])).draws ≠ (start 0xC300 []).draws := by decide

/-- The clauses of RandomByteIsMasked and of CycleMasksItsRandomByte: a running machine whose next word is RND, a byte within
the mask, and a machine whose next word is not RND; a latched one meets the last premise for want of an instruction. -/
theorem test_witness_random :
    Running (start 0xC30F []) ∧ Fetchable (start 0xC30F []) ∧
      decodeWord (nextWord (start 0xC30F [])) = some (.rndVxNn 0x3 0x0F) ∧ (0x05 : Byte) &&& ~~~0x0F = 0 ∧
      (0x0F : Byte) &&& ~~~0x0F = 0 ∧ ¬ Running { start 0xC30F [] with fault := some .stackOverflow } ∧
      ∀ i, Running (start 0x8124 []) → Fetchable (start 0x8124 []) →
        decodeWord (nextWord (start 0x8124 [])) = some i → readsRandom i = false := by
  refine ⟨rfl, ?_, by decide, by decide, by decide, nofun, fun i _ _ h => ?_⟩
  · unfold Fetchable
    decide
  · have hi : decodeWord (nextWord (start 0x8124 [])) = some (.addVxVy 0x1 0x2) := by decide
    rw [hi] at h
    injection h with h
    subst h
    decide

/-- KeypadMattersOnlyToItsInstructions and RandomByteMattersOnlyToRnd: a next instruction that reads neither. -/
theorem test_witness_independence :
    ∀ i, decodeWord (nextWord (start 0x8124 [])) = some i → readsKeys i = false ∧ readsRandom i = false := by
  intro i h
  have hi : decodeWord (nextWord (start 0x8124 [])) = some (.addVxVy 0x1 0x2) := by decide
  rw [hi] at h
  injection h with h
  subst h
  decide

end Sys2Proof.Tests
end

/-! PROOFS. The host move RESET(rom): what it answers, the state it builds piece by piece, and the statement that collects
them (R24, R126, R130, R131). -/

namespace Sys2Proof.Machine

/-! ## The answer of RESET -/

/-- R130: an image that fits is loaded. -/
theorem resetRom_of_length_le {rom : List Byte} (h : rom.length ≤ 3584) (s : State) :
    resetRom rom s = .next (loaded rom s) :=
  if_pos (decide_eq_true h)

/-- R126: a longer image is refused. -/
theorem resetRom_of_lt_length {rom : List Byte} (h : 3584 < rom.length) (s : State) :
    resetRom rom s = .refused .romTooLarge :=
  if_neg fun hwf => Nat.not_le_of_lt h (of_decide_eq_true hwf)

/-- R126, D18: the refused move leaves the state as it was. -/
theorem afterMove_reset_of_lt_length {rom : List Byte} (h : 3584 < rom.length) (s : State) :
    afterMove (.reset rom) s = s := by
  simp only [afterMove, hostMove, resetRom_of_lt_length h]

/-! ## The state RESET builds -/

/-- Every general register is 0 (R24). -/
@[simp] theorem readReg_loaded (rom : List Byte) (s : State) (r : RegName) : readReg (loaded rom s) r = 0 :=
  Vector.getElem_replicate _

/-- Every stack entry is 0 (R24). -/
@[simp] theorem stack_loaded (rom : List Byte) (s : State) (j : Nat) (h : j < 16) : (loaded rom s).stack[j] = 0 :=
  Vector.getElem_replicate _

/-- No key is pressed (R24). -/
@[simp] theorem keys_loaded (rom : List Byte) (s : State) (k : Fin 16) : (loaded rom s).keys[k] = false :=
  Vector.getElem_replicate _

/-- Every pixel is off (R24, D12). -/
@[simp] theorem pixel_loaded (rom : List Byte) (s : State) (r : Fin 32) (c : Fin 64) :
    pixel (loaded rom s).fb r c = false := by
  simp [pixel, loaded, State.reset]

/-- Memory before the image is laid down: the font at 0x050 to 0x09F, zero elsewhere (R24, R31). -/
theorem readCell_nil (a : Nat) :
    readCell [] a = if 0x050 ≤ a ∧ a ≤ 0x09F then fontTable.getD (a - 0x050) 0 else 0x00 :=
  if_congr (and_congr_right' Nat.lt_succ_iff) rfl rfl

/-- The image from 0x200, and below and above it memory as R24 has it (R24, R131): an image that fits lies inside memory, so it
is laid down by `readCell_writeCells`. -/
theorem memByte_loaded {rom : List Byte} (h : rom.length ≤ 3584) (s : State) (a : Nat) :
    memByte (loaded rom s) a =
      if 0x200 ≤ a ∧ a < 0x200 + rom.length then rom.getD (a - 0x200) 0
      else if 0x050 ≤ a ∧ a ≤ 0x09F then fontTable.getD (a - 0x050) 0
      else 0x00 := by
  have hfits : 0x200 + rom.length ≤ 0x1000 := by omega
  rw [← readCell_nil]
  exact readCell_writeCells Memory.wf_nil 0x200 rom hfits a

/-! ## The statement -/

/-- Settles O47: an image that fits is answered by `loaded`, whose array pieces and memory the lemmas above give and whose other
fields are those of the reset state by definition; a longer one is refused. -/
theorem resetBuildsTheResetState : Obligations.ResetBuildsTheResetState := by
  intro rom s
  refine ⟨fun h => ⟨loaded rom s, resetRom_of_length_le h s, ?_⟩,
    fun h => ⟨resetRom_of_lt_length h s, afterMove_reset_of_lt_length h s⟩⟩
  exact ⟨readReg_loaded rom s, rfl, rfl, stack_loaded rom s, rfl, rfl, rfl, keys_loaded rom s, pixel_loaded rom s, rfl, rfl,
    memByte_loaded h s⟩

end Sys2Proof.Machine

/-! PROOFS. The cycle engine's timer step: an instruction's body other than LD DT,Vx and LD ST,Vx leaves DT and ST alone, so a
cycle that raises nothing steps them exactly once (R64, R65). -/

namespace Sys2Proof.Machine

/-! ## The timer step in natural numbers -/

/-- A timer step is exactly the step R65 states. -/
theorem timersStepped_timerStep (s : State) : TimersStepped s (timerStep s) := ⟨countDown_toNat s.dt, countDown_toNat s.st⟩

/-- A timer step after changes that leave DT and ST alone is a timer step from before them. -/
theorem TimersStepped.congr_left {s u t : State} (h : TimersStepped u t) (hdt : u.dt = s.dt) (hst : u.st = s.st) :
    TimersStepped s t := by
  rwa [TimersStepped, hdt, hst] at h

/-! ## Effects and bodies that keep the timers -/

@[simp] theorem drawSprite_dt (x y : RegName) (n : Nibble) (s : State) : (drawSprite x y n s).dt = s.dt := rfl
@[simp] theorem drawSprite_st (x y : RegName) (n : Nibble) (s : State) : (drawSprite x y n s).st = s.st := rfl

@[simp] theorem loadKey_dt (x : RegName) (s : State) : (loadKey x s).dt = s.dt := by
  unfold loadKey
  split <;> simp

@[simp] theorem loadKey_st (x : RegName) (s : State) : (loadKey x s).st = s.st := by
  unfold loadKey
  split <;> simp

/-- Where a cycle's body completes, it has left DT and ST as they were. -/
def KeepsTimers (body : State → Except Fault State) : Prop :=
  ∀ s t : State, body s = .ok t → t.dt = s.dt ∧ t.st = s.st

/-- A bounds-checked effect keeps the timers if the effect does. -/
theorem keepsTimers_onBytesAtI (count : Nat) {effect : State → State}
    (h : ∀ s, (effect s).dt = s.dt ∧ (effect s).st = s.st) : KeepsTimers (onBytesAtI count effect) := by
  intro s t ht
  obtain ⟨-, hok⟩ | ⟨c, -, herror⟩ := onBytesAtI_cases count effect s
  · cases hok.symm.trans ht
    exact h s
  · cases herror.symm.trans ht

/-- A pop keeps the timers. -/
theorem keepsTimers_popPc : KeepsTimers popPc := by
  intro s t ht
  obtain hempty | hentry := Nat.eq_zero_or_pos s.sp.val
  · cases (popPc_empty hempty).symm.trans ht
  · cases (popPc_ok hentry).symm.trans ht
    exact ⟨rfl, rfl⟩

/-- The push of pc with the jump after it keeps the timers. -/
theorem keepsTimers_pushPc_jumpTo (a : Word) : KeepsTimers fun s => (push s.pc s).map (jumpTo a) := by
  intro s t ht
  by_cases hroom : s.sp.val < 16
  · simp only [push_ok s.pc hroom] at ht
    cases ht
    exact ⟨rfl, rfl⟩
  · simp only [push_full s.pc (show s.sp.val = 16 by omega)] at ht
    cases ht

/-! ## Cycles step the timers -/

/-- R65: a cycle that raises nothing steps the timers once around a body that keeps them. -/
theorem cycle_timersStepped {body : State → Except Fault State} (hbody : KeepsTimers body) {s t : State}
    (ht : Running t) (h : cycle body s = .next t) : TimersStepped s t := by
  obtain ⟨u, hu, rfl⟩ | ⟨c, -, rfl⟩ := cycle_cases h
  · obtain ⟨hdt, hst⟩ := hbody _ _ hu
    exact (timersStepped_timerStep u).congr_left hdt hst
  · cases ht

/-- R65: every instruction but the two that set a timer steps both timers, if its cycle raises nothing. Those that
can raise go by their bodies; the cycle of any other is its effect between the pc advance and the timer step. -/
theorem exec_timersStepped {i : Instr} (hdt : ∀ x, i ≠ .ldDTVx x) (hst : ∀ x, i ≠ .ldSTVx x) {s t : State}
    (ht : Running t) (h : exec i s = .next t) : TimersStepped s t := by
  cases i with
  | ldDTVx x => exact absurd rfl (hdt x)
  | ldSTVx x => exact absurd rfl (hst x)
  | ret => exact cycle_timersStepped keepsTimers_popPc ht h
  | callAddr nnn => exact cycle_timersStepped (keepsTimers_pushPc_jumpTo (zextAddr nnn)) ht h
  | drwVxVyN | ldBVx | ldMemIVx | ldVxMemI =>
    refine cycle_timersStepped (keepsTimers_onBytesAtI _ fun u => ?_) ht h
    simp
  | _ =>
    cases h
    exact (timersStepped_timerStep _).congr_left (by simp) (by simp)

/-- R101, R65: after LD DT,Vx the delay timer is V[x] counted down, and the sound timer has stepped. -/
theorem exec_ldDTVx_timers {x : RegName} {s t : State} (h : exec (.ldDTVx x) s = .next t) :
    t.dt.toNat = (readReg s x).toNat - 1 ∧ t.st.toNat = s.st.toNat - 1 := by
  cases h
  exact timersStepped_timerStep { advancePc s with dt := readReg s x }

/-- R102, R65: after LD ST,Vx the sound timer is V[x] counted down, and the delay timer has stepped. -/
theorem exec_ldSTVx_timers {x : RegName} {s t : State} (h : exec (.ldSTVx x) s = .next t) :
    t.dt.toNat = s.dt.toNat - 1 ∧ t.st.toNat = (readReg s x).toNat - 1 := by
  cases h
  exact timersStepped_timerStep { advancePc s with st := readReg s x }

/-! ## The statements -/

/-- Settles O11, by what a step can do: latching leaves no running machine, an unknown word and an ordinary instruction step the
timers, and the two instructions that set a timer step what they wrote. -/
theorem timersStepInEveryCycle : Obligations.TimersStepInEveryCycle := by
  intro s t hs h ht
  obtain ⟨⟨c, hc⟩, -⟩ | ⟨-, -, hstep⟩ | ⟨i, -, -, hi, hstep⟩ | ⟨-, -, hi, hstep⟩ := step_cases s
  · cases hs.symm.trans hc
  · cases hstep.symm.trans h
    cases ht
  · rw [hi]
    have hexec : exec i s = .next t := hstep.symm.trans h
    split
    next x hx =>
      cases hx
      exact exec_ldDTVx_timers hexec
    next hdt =>
      split
      next x hx =>
        cases hx
        exact exec_ldSTVx_timers hexec
      next hst =>
        exact exec_timersStepped (fun x hx => hdt x (hx ▸ rfl)) (fun x hx => hst x (hx ▸ rfl)) ht hexec
  · rw [hi]
    cases hstep.symm.trans h
    exact timersStepped_timerStep (advancePc s)

/-- Settles O8: the cycle of an unknown word is the pc advance and the timer step, with nothing between them. -/
theorem unknownWordIsNoOp : Obligations.UnknownWordIsNoOp := by
  intro s hr hf hw
  have hstep : step s = .next (timerStep (advancePc s)) := (step_fetchable hr hf).trans (runWord_none exec hw s)
  exact ⟨_, hstep, rfl, timersStepped_timerStep (advancePc s), rfl⟩

end Sys2Proof.Machine

/-! PROOFS. Control flow: the state each of JP, JP V0, CALL and RET answers, the fetch after a jump past 0xFFE, and the statements
that collect them (R70 to R73, R111, R113, R114). -/

namespace Sys2Proof.Machine

/-! ## Decoding -/

theorem decodeWord_encodeNnn_jpAddr (nnn : Addr) : decodeWord (encodeNnn 0x1 nnn) = some (.jpAddr nnn) := by simp [decodeWord]

theorem decodeWord_encodeNnn_callAddr (nnn : Addr) : decodeWord (encodeNnn 0x2 nnn) = some (.callAddr nnn) := by
  simp [decodeWord]

theorem decodeWord_encodeNnn_jpV0Addr (nnn : Addr) : decodeWord (encodeNnn 0xB nnn) = some (.jpV0Addr nnn) := by
  simp [decodeWord]

/-! ## Targets and return addresses as numbers -/

/-- Widening an address keeps its value (R48). -/
@[simp] theorem toNat_zextAddr (nnn : Addr) : (zextAddr nnn).toNat = nnn.toNat :=
  BitVec.toNat_setWidth_of_le (by decide)

/-- Widening a byte keeps its value (R6). -/
@[simp] theorem toNat_zextByte (b : Byte) : (zextByte b).toNat = b.toNat :=
  BitVec.toNat_setWidth_of_le (by decide)

/-- The sum of a 12-bit address and a byte fits in 16 bits, so it does not wrap (R73). -/
theorem toNat_offsetTarget (nnn : Addr) (offset : Byte) : (offsetTarget nnn offset).toNat = nnn.toNat + offset.toNat := by
  have hnnn := nnn.isLt
  have hoffset := offset.isLt
  rw [offsetTarget, BitVec.toNat_add, toNat_zextAddr, toNat_zextByte]
  omega

/-- Where a fetch can have succeeded, the advance of pc does not wrap (R13, R62). -/
theorem Fetchable.toNat_pc_add_two {s : State} (h : Fetchable s) : (s.pc + 2).toNat = s.pc.toNat + 2 := by
  unfold Fetchable at h
  bv_omega

/-! ## Jumps -/

/-- R70: JP addr is its jump and the timer step. -/
theorem exec_jpAddr (nnn : Addr) (s : State) : exec (.jpAddr nnn) s = .next (timerStep (jumpTo (zextAddr nnn) s)) := rfl

/-- R73: JP V0,addr is its jump and the timer step. -/
theorem exec_jpV0Addr (nnn : Addr) (s : State) :
    exec (.jpV0Addr nnn) s = .next (timerStep (jumpTo (offsetTarget nnn (readReg s v0)) s)) := rfl

/-- The cycle of a jump steps the timers (R65). -/
theorem timersStepped_jumpTo (a : Word) (s : State) : TimersStepped s (timerStep (jumpTo a s)) :=
  (timersStepped_timerStep (jumpTo a s)).congr_left rfl rfl

/-- R111: after a jump past 0xFFE the next fetch of a running machine raises OutOfBounds. -/
theorem step_jumpTo_unfetchable {s : State} (hr : Running s) {a : Word} (ha : 0xFFE < a.toNat) :
    step (timerStep (jumpTo a s)) =
      .next { timerStep (jumpTo a s) with fault := some (.outOfBounds (if a = 0xFFF then 0x1000 else a)) } :=
  step_unfetchable hr (Nat.not_le_of_lt ha)

/-! ## CALL and RET -/

/-- R71: CALL is the push of the advanced pc and the jump after it. -/
theorem exec_callAddr (nnn : Addr) (s : State) :
    exec (.callAddr nnn) s = cycle (fun t => (push t.pc t).map (jumpTo (zextAddr nnn))) s := rfl

/-- R71: CALL below the stack's depth pushes the advanced pc and jumps. -/
theorem exec_callAddr_ok (nnn : Addr) {s : State} (h : s.sp.val < 16) :
    exec (.callAddr nnn) s = .next (timerStep { s with
      pc := zextAddr nnn
      stack := s.stack.set s.sp.val (s.pc + 2) h
      sp := ⟨s.sp.val + 1, Nat.succ_lt_succ h⟩ }) := by
  have hpush := push_ok (s := advancePc s) (s.pc + 2) h
  exact (exec_callAddr nnn s).trans (cycle_ok (congrArg (Except.map (jumpTo (zextAddr nnn))) hpush))

/-- R113: CALL on a full stack raises StackOverflow. -/
theorem exec_callAddr_full (nnn : Addr) {s : State} (h : s.sp.val = 16) :
    exec (.callAddr nnn) s = .next { s with fault := some .stackOverflow } := by
  have hpush := push_full (s := advancePc s) (s.pc + 2) h
  exact (exec_callAddr nnn s).trans (cycle_error (congrArg (Except.map (jumpTo (zextAddr nnn))) hpush))

/-- R72: RET of a stack that holds an entry pops it into pc, over the advance. -/
theorem exec_ret_ok {s : State} (h : 0 < s.sp.val) :
    exec .ret s = .next (timerStep { s with
      sp := ⟨s.sp.val - 1, by omega⟩
      pc := s.stack[s.sp.val - 1]'(by omega) }) :=
  cycle_ok (popPc_ok (s := advancePc s) h)

/-- R114: RET of an empty stack raises StackUnderflow. -/
theorem exec_ret_empty {s : State} (h : s.sp.val = 0) :
    exec .ret s = .next { s with fault := some .stackUnderflow } :=
  cycle_error (popPc_empty (s := advancePc s) h)

/-- R71, R72: RET right after a CALL pops the entry that the CALL pushed. -/
theorem exec_ret_after_callAddr (nnn : Addr) {s : State} (h : s.sp.val < 16) :
    ∃ t u, exec (.callAddr nnn) s = .next t ∧ exec .ret t = .next u ∧ u.pc = s.pc + 2 ∧
      u.sp = s.sp ∧ u = { s with pc := u.pc, stack := u.stack, dt := u.dt, st := u.st } :=
  ⟨_, _, exec_callAddr_ok nnn h, exec_ret_ok (Nat.succ_pos s.sp.val), Vector.getElem_set_self h, rfl, rfl⟩

/-! ## The statements -/

/-- Settles O17, by the jump to the widened address; of the targets it can name, 0xFFF alone is past the last address a fetch
can start from. -/
theorem jumpSetsPc : Obligations.JumpSetsPc := by
  intro nnn s
  refine ⟨decodeWord_encodeNnn_jpAddr nnn, _, exec_jpAddr nnn s, toNat_zextAddr nnn, timersStepped_jumpTo _ s, rfl, ?_⟩
  intro hr hnnn
  have ha : zextAddr nnn = 0xFFF := BitVec.eq_of_toNat_eq ((toNat_zextAddr nnn).trans hnnn)
  rw [ha]
  exact step_jumpTo_unfetchable hr (by decide)

/-- Settles O18, by what a push does below the stack's depth and at it. -/
theorem callPushesAdvancedPcAndJumps : Obligations.CallPushesAdvancedPcAndJumps := by
  intro nnn s
  refine ⟨decodeWord_encodeNnn_callAddr nnn, fun hroom => ?_, exec_callAddr_full nnn⟩
  refine ⟨_, exec_callAddr_ok nnn hroom, toNat_zextAddr nnn, rfl, ?stack, ?returnAddress, ?timers, rfl⟩
  case stack =>
    intro j hj
    simp only [timerStep_stack, Vector.getElem_set, eq_comm (a := j)]
  case returnAddress =>
    intro hf
    have hadd := hf.toNat_pc_add_two
    exact ⟨hadd, hadd.trans_le (Nat.add_le_add_right hf 2)⟩
  case timers => exact (timersStepped_timerStep _).congr_left rfl rfl

/-- Settles O19, by what a pop does above the empty stack and at it, and by the entry a CALL leaves for it. -/
theorem returnPopsPc : Obligations.ReturnPopsPc := by
  refine ⟨by decide, fun s => ⟨fun hentry => ?_, exec_ret_empty, fun hroom nnn => exec_ret_after_callAddr nnn hroom⟩⟩
  exact ⟨_, exec_ret_ok hentry, rfl, rfl, (timersStepped_timerStep _).congr_left rfl rfl, rfl⟩

/-- Settles O20, by the jump to a sum that does not wrap. -/
theorem jumpWithOffsetAddsV0 : Obligations.JumpWithOffsetAddsV0 := by
  intro nnn s
  refine ⟨decodeWord_encodeNnn_jpV0Addr nnn, _, exec_jpV0Addr nnn s, toNat_offsetTarget nnn _, timersStepped_jumpTo _ s,
    rfl, ?_⟩
  exact fun hr ha => ⟨_, step_jumpTo_unfetchable hr ha⟩

end Sys2Proof.Machine

/-! PROOFS. Conditional skips: the words of the four instructions, the state a skip's cycle answers, and the statements that
collect them (R75 to R78). -/

namespace Sys2Proof.Machine

/-! ## Decoding -/

theorem decodeWord_encodeXnn_seVxNn (x : RegName) (nn : Byte) : decodeWord (encodeXnn 0x3 x nn) = some (.seVxNn x nn) := by
  simp [decodeWord]

theorem decodeWord_encodeXnn_sneVxNn (x : RegName) (nn : Byte) : decodeWord (encodeXnn 0x4 x nn) = some (.sneVxNn x nn) := by
  simp [decodeWord]

/-- The words with `n1 = 5`: SE Vx,Vy where `n4` is 0, unknown elsewhere (R50, D7). -/
theorem decodeWord_encodeXyn_five (x y : RegName) (n : Nibble) :
    decodeWord (encodeXyn 0x5 x y n) = if n = 0 then some (.seVxVy x y) else none := by simp [decodeWord]

/-- The words with `n1 = 9`: SNE Vx,Vy where `n4` is 0, unknown elsewhere (R50, D7). -/
theorem decodeWord_encodeXyn_nine (x y : RegName) (n : Nibble) :
    decodeWord (encodeXyn 0x9 x y n) = if n = 0 then some (.sneVxVy x y) else none := by simp [decodeWord]

/-! ## The cycle of a skip -/

/-- A skip whose condition does not read pc is decided by the entry state, and its cycle is one jump, to pc0 + 4 or pc0 + 2, and
the timer step (R75 to R78, R97, R98). -/
theorem complete_skipIf {condition : State → Bool} {s : State} (h : condition (advancePc s) = condition s) :
    complete (fun t => skipIf (condition t) t) s =
      .next (timerStep (jumpTo (if condition s then s.pc + 4 else s.pc + 2) s)) := by
  rw [complete_eq, h, skipIf_advancePc]

/-- R75: SE Vx,nn skips on equality. -/
theorem exec_seVxNn (x : RegName) (nn : Byte) (s : State) :
    exec (.seVxNn x nn) s = .next (timerStep (jumpTo (if readReg s x = nn then s.pc + 4 else s.pc + 2) s)) :=
  (complete_skipIf (condition := fun t => readReg t x == nn) rfl).trans (by simp only [beq_iff_eq])

/-- R76: SNE Vx,nn skips on inequality. -/
theorem exec_sneVxNn (x : RegName) (nn : Byte) (s : State) :
    exec (.sneVxNn x nn) s = .next (timerStep (jumpTo (if readReg s x = nn then s.pc + 2 else s.pc + 4) s)) :=
  (complete_skipIf (condition := fun t => readReg t x != nn) rfl).trans (by simp only [bne_iff_ne, ne_eq, ite_not])

/-- R77: SE Vx,Vy skips on equality. -/
theorem exec_seVxVy (x y : RegName) (s : State) :
    exec (.seVxVy x y) s = .next (timerStep (jumpTo (if readReg s x = readReg s y then s.pc + 4 else s.pc + 2) s)) :=
  (complete_skipIf (condition := fun t => readReg t x == readReg t y) rfl).trans (by simp only [beq_iff_eq])

/-- R78: SNE Vx,Vy skips on inequality. -/
theorem exec_sneVxVy (x y : RegName) (s : State) :
    exec (.sneVxVy x y) s = .next (timerStep (jumpTo (if readReg s x = readReg s y then s.pc + 2 else s.pc + 4) s)) :=
  (complete_skipIf (condition := fun t => readReg t x != readReg t y) rfl).trans (by simp only [bne_iff_ne, ne_eq, ite_not])

/-! ## The statements -/

/-- Settles O21, by the jump each of the two instructions makes. -/
theorem skipOnImmediate : Obligations.SkipOnImmediate := by
  intro x nn s
  refine ⟨⟨decodeWord_encodeXnn_seVxNn x nn, ?se⟩, ⟨decodeWord_encodeXnn_sneVxNn x nn, ?sne⟩⟩
  case se => exact ⟨_, exec_seVxNn x nn s, rfl, timersStepped_jumpTo _ s, rfl⟩
  case sne => exact ⟨_, exec_sneVxNn x nn s, rfl, timersStepped_jumpTo _ s, rfl⟩

/-- Settles O22, by the jump each of the two instructions makes and by what decides their words. -/
theorem skipOnRegister : Obligations.SkipOnRegister := by
  intro x y s
  refine ⟨⟨decodeWord_encodeXyn_five x y 0, ?se⟩, ⟨decodeWord_encodeXyn_nine x y 0, ?sne⟩, fun n hn => ⟨?five, ?nine⟩⟩
  case se => exact ⟨_, exec_seVxVy x y s, rfl, timersStepped_jumpTo _ s, rfl⟩
  case sne => exact ⟨_, exec_sneVxVy x y s, rfl, timersStepped_jumpTo _ s, rfl⟩
  case five => exact (decodeWord_encodeXyn_five x y n).trans (if_neg hn)
  case nine => exact (decodeWord_encodeXyn_nine x y n).trans (if_neg hn)

end Sys2Proof.Machine

/-! PROOFS. Register load, arithmetic, logic and shift: the words of the eleven instructions, the register write each of them
answers, the flags and results as numbers, and the statements that collect them (R79 to R90). -/

namespace Sys2Proof.Machine

/-! ## Decoding -/

/-- The decoder undoes the encoder (R47, R50): the fields of an assembled word are those it was assembled from, and the branch
they select is the instruction's own. -/
theorem decodeWord_encode (i : Instr) : decodeWord (encode i) = some i := by
  cases i with
  | cls | ret => decide
  | _ => simp [encode, decodeWord, decode8, decodeE, decodeF]

/-! ## What the eleven instructions write

The operands are those of the entry state, since the advance of pc touches no register. -/

/-- R80: LD Vx,nn writes the immediate. -/
theorem exec_ldVxNn (x : RegName) (nn : Byte) (s : State) :
    exec (.ldVxNn x nn) s = .next (timerStep (writeReg x nn (advancePc s))) := rfl

/-- R81: ADD Vx,nn writes the sum, and no flag. -/
theorem exec_addVxNn (x : RegName) (nn : Byte) (s : State) :
    exec (.addVxNn x nn) s = .next (timerStep (writeReg x (readReg s x + nn) (advancePc s))) := rfl

/-- R82: LD Vx,Vy writes V[y]. -/
theorem exec_ldVxVy (x y : RegName) (s : State) :
    exec (.ldVxVy x y) s = .next (timerStep (writeReg x (readReg s y) (advancePc s))) := rfl

/-- R83: OR Vx,Vy writes no flag. -/
theorem exec_orVxVy (x y : RegName) (s : State) :
    exec (.orVxVy x y) s = .next (timerStep (writeReg x (readReg s x ||| readReg s y) (advancePc s))) := rfl

/-- R84: AND Vx,Vy writes no flag. -/
theorem exec_andVxVy (x y : RegName) (s : State) :
    exec (.andVxVy x y) s = .next (timerStep (writeReg x (readReg s x &&& readReg s y) (advancePc s))) := rfl

/-- R85: XOR Vx,Vy writes no flag. -/
theorem exec_xorVxVy (x y : RegName) (s : State) :
    exec (.xorVxVy x y) s = .next (timerStep (writeReg x (readReg s x ^^^ readReg s y) (advancePc s))) := rfl

/-- R86: ADD Vx,Vy writes the sum, then the carry. -/
theorem exec_addVxVy (x y : RegName) (s : State) :
    exec (.addVxVy x y) s = .next (timerStep (writeResultAndFlag x (readReg s x + readReg s y)
      (carryFlag (readReg s x) (readReg s y)) (advancePc s))) := rfl

/-- R87: SUB Vx,Vy writes V[x] - V[y], then whether V[x] > V[y]. -/
theorem exec_subVxVy (x y : RegName) (s : State) :
    exec (.subVxVy x y) s = .next (timerStep (writeResultAndFlag x (readReg s x - readReg s y)
      (greaterFlag (readReg s x) (readReg s y)) (advancePc s))) := rfl

/-- R88: SHR Vx writes the shifted byte, then its low bit, whatever the y field is (R52). -/
theorem exec_shrVx (x y : RegName) (s : State) :
    exec (.shrVx x y) s = .next (timerStep (writeResultAndFlag x (readReg s x >>> 1) (lowBitFlag (readReg s x))
      (advancePc s))) := rfl

/-- R89: SUBN Vx,Vy writes V[y] - V[x], then whether V[x] < V[y]. -/
theorem exec_subnVxVy (x y : RegName) (s : State) :
    exec (.subnVxVy x y) s = .next (timerStep (writeResultAndFlag x (readReg s y - readReg s x)
      (lessFlag (readReg s x) (readReg s y)) (advancePc s))) := rfl

/-- R90: SHL Vx writes the shifted byte, then its high bit, whatever the y field is (R52). -/
theorem exec_shlVx (x y : RegName) (s : State) :
    exec (.shlVx x y) s = .next (timerStep (writeResultAndFlag x (readReg s x <<< 1) (highBitFlag (readReg s x))
      (advancePc s))) := rfl

/-! ## Flags and results as numbers -/

/-- R86: the carry is set exactly when the sum exceeds 255. -/
theorem toNat_flagByte_carryFlag (a b : Byte) :
    (flagByte (carryFlag a b)).toNat = if a.toNat + b.toNat > 255 then 1 else 0 := by
  simp only [toNat_flagByte, carryFlag, decide_eq_true_eq]

/-- R87, C3: the comparison of SUB is strict. -/
theorem toNat_flagByte_greaterFlag (a b : Byte) :
    (flagByte (greaterFlag a b)).toNat = if a.toNat > b.toNat then 1 else 0 := by
  simp only [toNat_flagByte, greaterFlag, decide_eq_true_eq]

/-- R89, C3: the comparison of SUBN is strict. -/
theorem toNat_flagByte_lessFlag (a b : Byte) :
    (flagByte (lessFlag a b)).toNat = if a.toNat < b.toNat then 1 else 0 := by
  simp only [toNat_flagByte, lessFlag, decide_eq_true_eq]

/-- R88: the bit shifted out on the right is the remainder of the halving. -/
theorem toNat_flagByte_lowBitFlag (a : Byte) : (flagByte (lowBitFlag a)).toNat = a.toNat % 2 := by
  rw [toNat_flagByte, lowBitFlag, BitVec.getLsbD, Nat.testBit_zero]
  obtain h | h := Nat.mod_two_eq_zero_or_one a.toNat <;> simp [h]

/-- R90: the bit shifted out on the left is the quotient by 128. -/
theorem toNat_flagByte_highBitFlag (a : Byte) : (flagByte (highBitFlag a)).toNat = a.toNat / 128 := by
  have ha : a.toNat < 256 := a.isLt
  rw [toNat_flagByte, highBitFlag, BitVec.getLsbD, Nat.testBit_eq_decide_div_mod_eq]
  simp only [decide_eq_true_eq]
  split <;> omega

/-- R87: a byte's difference wraps at 256. -/
theorem toNat_sub_byte (a b : Byte) : (a - b).toNat = (a.toNat + 256 - b.toNat) % 256 := by
  have hb : b.toNat < 256 := b.isLt
  rw [BitVec.toNat_sub]
  omega

/-- R88: a shift right by one halves. -/
theorem toNat_shiftRight_one (a : Byte) : (a >>> 1).toNat = a.toNat / 2 := by
  rw [BitVec.toNat_ushiftRight, Nat.shiftRight_one]

/-- R90: a shift left by one doubles, modulo 256. -/
theorem toNat_shiftLeft_one (a : Byte) : (a <<< 1).toNat = 2 * a.toNat % 256 := by
  rw [BitVec.toNat_shiftLeft, Nat.shiftLeft_eq, Nat.mul_comm]

/-! ## The cycle of a register write -/

/-- The frame the statements of this family share: beside V only pc and the timers differ, pc has advanced by 2 and the timers
have stepped (R62, R65, R79). -/
def WritesOnlyRegisters (s t : State) : Prop :=
  t.pc = s.pc + 2 ∧ TimersStepped s t ∧ t = { s with v := t.v, pc := t.pc, dt := t.dt, st := t.st }

/-- A cycle that sets V to anything has that frame. -/
theorem writesOnlyRegisters_timerStep (v : Regs) (s : State) :
    WritesOnlyRegisters s (timerStep { advancePc s with v := v }) :=
  ⟨rfl, (timersStepped_timerStep _).congr_left rfl rfl, rfl⟩

section
variable {i : Instr} {x : RegName} {b : Byte} {f : Bool} {s : State}

/-- The cycle of an instruction that writes one register: that register and no other, VF included unless it is the
destination. -/
theorem exec_of_writeReg (h : exec i s = .next (timerStep (writeReg x b (advancePc s)))) :
    ∃ t, exec i s = .next t ∧ (∀ r, readReg t r = if r = x then b else readReg s r) ∧ WritesOnlyRegisters s t :=
  ⟨_, h, fun r => readReg_writeReg x r b (advancePc s), writesOnlyRegisters_timerStep _ s⟩

/-- The same with the written byte given bit by bit. -/
theorem exec_of_writeReg_bits (h : exec i s = .next (timerStep (writeReg x b (advancePc s)))) {bit : Nat → Bool}
    (hb : ∀ j, b.getLsbD j = bit j) :
    ∃ t, exec i s = .next t ∧ (∀ j, (readReg t x).getLsbD j = bit j) ∧ (∀ r, r ≠ x → readReg t r = readReg s r) ∧
      WritesOnlyRegisters s t := by
  obtain ⟨t, ht, hread, hframe⟩ := exec_of_writeReg h
  refine ⟨t, ht, fun j => ?_, fun r hr => (hread r).trans (if_neg hr), hframe⟩
  rw [hread x, if_pos rfl, hb]

/-- The cycle of an instruction that writes a result and then a flag, both given as numbers: with x = 15 the flag remains
(R12). -/
theorem exec_of_writeResultAndFlag (h : exec i s = .next (timerStep (writeResultAndFlag x b f (advancePc s))))
    {flag result : Nat} (hf : (flagByte f).toNat = flag) (hb : b.toNat = result) :
    ∃ t, exec i s = .next t ∧
      (∀ r, (readReg t r).toNat = if r = 0xF then flag else if r = x then result else (readReg s r).toNat) ∧
      WritesOnlyRegisters s t := by
  refine ⟨_, h, fun r => ?_, writesOnlyRegisters_timerStep _ s⟩
  rw [readReg_timerStep, readReg_writeResultAndFlag, readReg_advancePc, apply_ite BitVec.toNat, apply_ite BitVec.toNat, hf, hb]

end

/-! ## The statements -/

/-- Settles O26, by the sum modulo 256 and the carry. -/
theorem addSetsCarryLast : Obligations.AddSetsCarryLast := fun x y s =>
  ⟨decodeWord_encode (.addVxVy x y),
    exec_of_writeResultAndFlag (exec_addVxVy x y s) (toNat_flagByte_carryFlag _ _) (BitVec.toNat_add _ _)⟩

/-- Settles O27, by the difference modulo 256 and the strict comparison. -/
theorem subtractSetsStrictFlagLast : Obligations.SubtractSetsStrictFlagLast := fun x y s =>
  ⟨decodeWord_encode (.subVxVy x y),
    exec_of_writeResultAndFlag (exec_subVxVy x y s) (toNat_flagByte_greaterFlag _ _) (toNat_sub_byte _ _)⟩

/-- Settles O28, by the difference modulo 256 the other way round and the strict comparison. -/
theorem reverseSubtractSetsStrictFlagLast : Obligations.ReverseSubtractSetsStrictFlagLast := fun x y s =>
  ⟨decodeWord_encode (.subnVxVy x y),
    exec_of_writeResultAndFlag (exec_subnVxVy x y s) (toNat_flagByte_lessFlag _ _) (toNat_sub_byte _ _)⟩

/-- Settles O29, by the two shifts and the bits they lose. -/
theorem shiftsReportTheBitShiftedOut : Obligations.ShiftsReportTheBitShiftedOut := by
  intro x y s
  refine ⟨⟨decodeWord_encode (.shrVx x y), ?shr⟩, ⟨decodeWord_encode (.shlVx x y), ?shl⟩⟩
  case shr =>
    exact exec_of_writeResultAndFlag (exec_shrVx x y s) (toNat_flagByte_lowBitFlag _) (toNat_shiftRight_one _)
  case shl =>
    exact exec_of_writeResultAndFlag (exec_shlVx x y s) (toNat_flagByte_highBitFlag _) (toNat_shiftLeft_one _)

/-- Settles O23, by the one register each of the two loads writes. -/
theorem loadWritesOneRegister : Obligations.LoadWritesOneRegister := fun x y nn s =>
  ⟨⟨decodeWord_encode (.ldVxNn x nn), exec_of_writeReg (exec_ldVxNn x nn s)⟩,
    ⟨decodeWord_encode (.ldVxVy x y), exec_of_writeReg (exec_ldVxVy x y s)⟩⟩

/-- Settles O24, by the one register the addition writes. -/
theorem addImmediateWrapsWithoutFlag : Obligations.AddImmediateWrapsWithoutFlag := by
  intro x nn s
  obtain ⟨t, ht, hread, hframe⟩ := exec_of_writeReg (exec_addVxNn x nn s)
  refine ⟨decodeWord_encode (.addVxNn x nn), t, ht, fun r => ?_, hframe⟩
  rw [hread, apply_ite BitVec.toNat, BitVec.toNat_add]

/-- Settles O25, by the bits of each operation's result. -/
theorem bitwiseOperationsWriteNoFlag : Obligations.BitwiseOperationsWriteNoFlag := by
  intro x y s
  refine ⟨⟨decodeWord_encode (.orVxVy x y), ?or⟩, ⟨decodeWord_encode (.andVxVy x y), ?and⟩,
    ⟨decodeWord_encode (.xorVxVy x y), ?xor⟩⟩
  case or => exact exec_of_writeReg_bits (exec_orVxVy x y s) fun _ => BitVec.getLsbD_or
  case and => exact exec_of_writeReg_bits (exec_andVxVy x y s) fun _ => BitVec.getLsbD_and
  case xor => exact exec_of_writeReg_bits (exec_xorVxVy x y s) fun _ => BitVec.getLsbD_xor

end Sys2Proof.Machine

/-! PROOFS. The index register: the address each of LD I, ADD I and LD F writes, that address as a number, and the statements
that collect them (R91 to R93). -/

namespace Sys2Proof.Machine

/-! ## What the three instructions write -/

/-- R91: LD I,nnn writes the widened address. -/
theorem exec_ldINnn (nnn : Addr) (s : State) :
    exec (.ldINnn nnn) s = .next (timerStep (writeIdx (zextAddr nnn) (advancePc s))) := rfl

/-- R92: ADD I,Vx writes the 16-bit sum, and no flag. -/
theorem exec_addIVx (x : RegName) (s : State) :
    exec (.addIVx x) s = .next (timerStep (writeIdx (s.idx + zextByte (readReg s x)) (advancePc s))) := rfl

/-- R93: LD F,Vx writes the glyph's address. -/
theorem exec_ldFVx (x : RegName) (s : State) :
    exec (.ldFVx x) s = .next (timerStep (writeIdx (glyphAddress (readReg s x)) (advancePc s))) := rfl

/-! ## The written addresses as numbers -/

/-- R92: the sum of a word and a widened byte wraps at 16 bits only (D9). -/
theorem toNat_add_zextByte (a : Word) (b : Byte) : (a + zextByte b).toNat = (a.toNat + b.toNat) % 65536 := by
  rw [BitVec.toNat_add, toNat_zextByte]

/-- R93: the glyph address of any byte, digit or not (D10), is at most 0x054B, so it does not wrap. -/
theorem toNat_glyphAddress (d : Byte) : (glyphAddress d).toNat = 0x0050 + 5 * d.toNat := by
  have hfits : 0x0050 + 5 * d.toNat < 2 ^ 16 := by
    have hd := d.isLt
    omega
  exact (BitVec.toNat_ofNat _ 16).trans (Nat.mod_eq_of_lt hfits)

/-! ## The cycle of an index write -/

/-- The cycle of an instruction that writes I, the written address given as a number: beside I only pc and the timers
differ. -/
theorem exec_of_writeIdx {i : Instr} {a : Word} {s : State}
    (h : exec i s = .next (timerStep (writeIdx a (advancePc s)))) {n : Nat} (ha : a.toNat = n) :
    ∃ t, exec i s = .next t ∧ t.idx.toNat = n ∧ t.pc = s.pc + 2 ∧ TimersStepped s t ∧
      t = { s with idx := t.idx, pc := t.pc, dt := t.dt, st := t.st } :=
  ⟨_, h, ha, rfl, (timersStepped_timerStep _).congr_left rfl rfl, rfl⟩

/-! ## The statements -/

/-- Settles O31, by the widening of a 12-bit address, which keeps its value. -/
theorem loadIndex : Obligations.LoadIndex := fun nnn s =>
  ⟨decodeWord_encode (.ldINnn nnn), exec_of_writeIdx (exec_ldINnn nnn s) (toNat_zextAddr nnn)⟩

/-- Settles O32, by the sum modulo 65536. -/
theorem addToIndexWrapsAtSixteenBits : Obligations.AddToIndexWrapsAtSixteenBits := fun x s =>
  ⟨decodeWord_encode (.addIVx x), exec_of_writeIdx (exec_addIVx x s) (toNat_add_zextByte _ _)⟩

/-- Settles O33, by the glyph address, which is in range for every byte. -/
theorem loadGlyphAddress : Obligations.LoadGlyphAddress := fun x s =>
  ⟨decodeWord_encode (.ldFVx x), exec_of_writeIdx (exec_ldFVx x s) (toNat_glyphAddress _)⟩

end Sys2Proof.Machine

/-! PROOFS. The random byte: what a mask leaves of a byte, the cycle of RND with the byte the host hands in, every other cycle's
independence of that byte, and the statement that collects them (R60, R94). -/

namespace Sys2Proof.Machine

/-! ## Masked bytes -/

/-- R94: no bit outside the mask is left. -/
theorem and_mask_and_not_mask (b mask : Byte) : b &&& mask &&& ~~~mask = 0 := by
  rw [BitVec.and_assoc, BitVec.and_not_self]
  exact BitVec.and_zero

/-- R94: a byte within the mask is left as it is, since the mask and its complement split every byte. -/
theorem and_mask_of_and_not_mask {b mask : Byte} (h : b &&& ~~~mask = 0) : b &&& mask = b := by
  calc b &&& mask
    _ = b &&& mask ||| b &&& ~~~mask := by rw [h]; exact BitVec.or_zero.symm
    _ = b &&& (mask ||| ~~~mask) := BitVec.and_or_distrib_left.symm
    _ = b := by rw [BitVec.or_not_self, BitVec.and_allOnes]

/-! ## Cycles and the random byte -/

/-- R60, R94: where RND is next, the cycle writes the masked byte between the pc advance and the timer step. -/
theorem cycleWith_rndVxNn {s : State} (hr : Running s) (hf : Fetchable s) {x : RegName} {nn : Byte}
    (hw : decodeWord (nextWord s) = some (.rndVxNn x nn)) (rand : Byte) :
    cycleWith rand s = .next (timerStep (countDraw (randomMasked rand x nn (advancePc s)))) :=
  (cycleBy_fetchable (execWith rand) hr hf).trans (runWord_some (execWith rand) hw s)

/-- R60: a cycle executes at most the instruction that is next, so executions that agree on it make the same cycle. -/
theorem cycleBy_congr {run run' : Instr → State → Host.Outcome State Fault Refusal} {s : State}
    (h : ∀ i, Running s → Fetchable s → decodeWord (nextWord s) = some i → run i s = run' i s) :
    cycleBy run s = cycleBy run' s := by
  obtain ⟨⟨c, hc⟩, hcycle⟩ | ⟨hr, hf, hcycle⟩ | ⟨i, hr, hf, hi, hcycle⟩ | ⟨hr, hf, hw, hcycle⟩ := cycleBy_cases run s
  · exact hcycle.trans (cycleBy_latched run' hc).symm
  · exact hcycle.trans (cycleBy_unfetchable run' hr hf).symm
  · rw [hcycle, cycleBy_fetchable run' hr hf, runWord_some run' hi, h i hr hf hi]
  · rw [hcycle, cycleBy_fetchable run' hr hf, runWord_none run' hw]

/-- R94, D15: where RND is not next, the random byte is irrelevant. -/
theorem cycleWith_eq_of_readsRandom_eq_false {s : State}
    (h : ∀ i, Running s → Fetchable s → decodeWord (nextWord s) = some i → readsRandom i = false) (rand rand' : Byte) :
    cycleWith rand s = cycleWith rand' s := by
  refine cycleBy_congr fun i hr hf hi => ?_
  have hrandom := h i hr hf hi
  rw [execWith_eq_exec rand hrandom, execWith_eq_exec rand' hrandom]

/-! ## The statement -/

/-- Settles O57, by the masked byte that the cycle of RND writes; a byte within the mask is reached by handing in that byte. -/
theorem cycleMasksItsRandomByte : Obligations.CycleMasksItsRandomByte := by
  refine ⟨fun x nn s => ⟨decodeWord_encode (.rndVxNn x nn), fun hr hf hw => ?_⟩,
    fun s h => cycleWith_eq_of_readsRandom_eq_false h⟩
  have hcycle := cycleWith_rndVxNn hr hf hw
  have hread := fun rand r => readReg_randomMasked rand x r nn (advancePc s)
  have hx := fun rand => (hread rand x).trans (if_pos rfl)
  refine ⟨fun rand => ⟨_, hcycle rand, hread rand, ?noBitOutside, rfl, ?timers, rfl⟩,
    fun b hb => ⟨b, _, hcycle b, (hx b).trans (and_mask_of_and_not_mask hb)⟩⟩
  case noBitOutside => exact (congrArg (· &&& ~~~nn) (hx rand)).trans (and_mask_and_not_mask rand nn)
  case timers => exact (timersStepped_timerStep _).congr_left rfl rfl

end Sys2Proof.Machine

/-! PROOFS. The display: the pixels that CLS and DRW leave, the collision that DRW reports, and the statements that collect them
(R95, R96). -/

namespace Sys2Proof.Machine

/-! ## CLS -/

/-- A blank screen has no pixel set (R95). -/
@[simp] theorem pixel_blank (r : Fin 32) (c : Fin 64) :
    pixel (Vector.replicate 32 (Vector.replicate 64 false)) r c = false := by
  simp [pixel]

/-- R95: CLS blanks the screen between the pc advance and the timer step. -/
theorem exec_cls (s : State) :
    exec .cls s = .next (timerStep { advancePc s with fb := Vector.replicate 32 (Vector.replicate 64 false) }) := rfl

/-! ## Screen positions as offsets from the sprite's start -/

/-- The row that lies `j` rows below the start, wrapping, is the one at distance `j` from it (R96). -/
theorem eq_screenRow_iff (y0 : Nat) {j : Nat} (hj : j < 32) (r : Fin 32) :
    r = screenRow (y0 % 32 + j) ↔ (r.val + 32 - y0 % 32) % 32 = j := by
  have hr := r.isLt
  simp only [screenRow, Fin.ext_iff]
  omega

/-- The column that lies `k` columns right of the start, wrapping, is the one at distance `k` from it (R96). -/
theorem eq_screenCol_iff (x0 : Nat) {k : Nat} (hk : k < 64) (c : Fin 64) :
    c = screenCol (x0 % 64 + k) ↔ (c.val + 64 - x0 % 64) % 64 = k := by
  have hc := c.isLt
  simp only [screenCol, Fin.ext_iff]
  omega

/-! ## The sprite on the screen -/

section
variable (x y : RegName) (n : Nibble) (s : State)

/-- The set pixels of the sprite are the set bits of its bytes: bit `k` of byte `j`, at `j` rows and `k` columns from the start
(R96). -/
theorem spriteAt_eq_true_iff (r : Fin 32) (c : Fin 64) :
    spriteAt s x y n r c = true ↔ ∃ j < n.toNat, ∃ k < 8, spriteBit (memByte s (s.idx.toNat + j)) k = true ∧
      r = screenRow ((readReg s y).toNat % 32 + j) ∧ c = screenCol ((readReg s x).toNat % 64 + k) := by
  have hn : n.toNat < 16 := n.isLt
  simp only [spriteAt, Bool.and_eq_true, decide_eq_true_eq]
  constructor
  · rintro ⟨⟨hj, hk⟩, hbit⟩
    exact ⟨_, hj, _, hk, hbit, (eq_screenRow_iff _ (by omega) r).2 rfl, (eq_screenCol_iff _ (by omega) c).2 rfl⟩
  · rintro ⟨j, hj, k, hk, hbit, hr, hc⟩
    rw [eq_screenRow_iff _ (by omega)] at hr
    rw [eq_screenCol_iff _ (by omega)] at hc
    subst hr hc
    exact ⟨⟨hj, hk⟩, hbit⟩

/-- A set bit of the sprite meets a set pixel of the screen (R96). -/
def SpriteCollides : Prop := ∃ r c, spriteAt s x y n r c = true ∧ pixel s.fb r c = true

/-- The collision, bit by bit of the sprite's bytes. -/
theorem spriteCollides_iff :
    SpriteCollides x y n s ↔ ∃ j < n.toNat, ∃ k < 8, spriteBit (memByte s (s.idx.toNat + j)) k = true ∧
      pixel s.fb (screenRow ((readReg s y).toNat % 32 + j)) (screenCol ((readReg s x).toNat % 64 + k)) = true := by
  simp only [SpriteCollides, spriteAt_eq_true_iff]
  constructor
  · rintro ⟨_, _, ⟨j, hj, k, hk, hbit, rfl, rfl⟩, hp⟩
    exact ⟨j, hj, k, hk, hbit, hp⟩
  · rintro ⟨j, hj, k, hk, hbit, hp⟩
    exact ⟨_, _, ⟨j, hj, k, hk, hbit, rfl, rfl⟩, hp⟩

/-- Byte `j` of the `n` bytes read at I (R96). -/
theorem getD_readCells_idx {j : Nat} (hj : j < n.toNat) :
    (readCells s.mem s.idx.toNat n.toNat).getD j 0 = memByte s (s.idx.toNat + j) := by
  have hlen : j < (readCells s.mem s.idx.toNat n.toNat).length := by rwa [length_readCells]
  rw [← List.getElem_eq_getD (h := hlen), getElem_readCells]
  rfl

/-- What drawing does to the screen and the collision it finds (R96). -/
theorem drawSprite_spec :
    ∃ fb hit, drawSprite x y n s = writeFlag hit { s with fb := fb } ∧
      (∀ r c, pixel fb r c = (pixel s.fb r c ^^ spriteAt s x y n r c)) ∧ (hit = true ↔ SpriteCollides x y n s) := by
  have hn : n.toNat < 16 := n.isLt
  obtain ⟨hpix, hhit⟩ := drawBytes_spec ((readReg s x).toNat % 64) ((readReg s y).toNat % 32)
    (readCells s.mem s.idx.toNat n.toNat) (s.fb, false) (by rw [length_readCells]; omega)
  refine ⟨_, _, rfl, fun r c => ?pixels, ?collision⟩
  case pixels =>
    rw [hpix, length_readCells, Nat.mod_mod, Nat.mod_mod]
    by_cases hj : (r.val + 32 - (readReg s y).toNat % 32) % 32 < n.toNat
    · rw [getD_readCells_idx n s hj]
      rfl
    · simp [spriteAt, hj]
  case collision =>
    rw [hhit, spriteCollides_iff, length_readCells, or_iff_right Bool.false_ne_true]
    refine exists_congr fun j => and_congr_right fun hj => ?_
    rw [getD_readCells_idx n s hj]

end

/-! ## DRW -/

/-- R96: DRW of bytes that all lie in memory draws between the pc advance and the timer step. -/
theorem exec_drwVxVyN_ok (x y : RegName) {n : Nibble} {s : State} (h : n.toNat = 0 ∨ s.idx.toNat + (n.toNat - 1) ≤ 0xFFF) :
    exec (.drwVxVyN x y n) s = .next (timerStep (drawSprite x y n (advancePc s))) :=
  cycle_onBytesAtI_ok _ (by omega)

/-- R112: the lowest address above 0xFFF, of those from `a` on. -/
theorem ofNat_max_memSize (a : Word) : BitVec.ofNat 16 (max a.toNat 0x1000) = if a.toNat ≤ 0xFFF then 0x1000 else a := by
  split
  next ha => exact congrArg (BitVec.ofNat 16) (Nat.max_eq_right (by omega))
  next ha => rw [Nat.max_eq_left (by omega), BitVec.ofNat_toNat, BitVec.setWidth_eq]

/-- R96, R112: DRW of bytes of which one lies above 0xFFF raises OutOfBounds at the lowest such address. -/
theorem exec_drwVxVyN_error (x y : RegName) {n : Nibble} {s : State} (hn : 0 < n.toNat)
    (h : 0xFFF < s.idx.toNat + (n.toNat - 1)) :
    exec (.drwVxVyN x y n) s =
      .next { s with fault := some (.outOfBounds (if s.idx.toNat ≤ 0xFFF then 0x1000 else s.idx)) } := by
  rw [← ofNat_max_memSize]
  exact cycle_onBytesAtI_error _ hn (by omega)

/-! ## The statements -/

/-- Settles O36, by what drawing does to the screen and the collision it finds, and by the bounds check before it. -/
theorem drawTogglesSpriteAndReportsCollision : Obligations.DrawTogglesSpriteAndReportsCollision := by
  intro x y n s
  refine ⟨decodeWord_encode (.drwVxVyN x y n), fun hfits => ?_, exec_drwVxVyN_error x y⟩
  obtain ⟨fb, hit, hdraw, hpix, hhit⟩ := drawSprite_spec x y n (advancePc s)
  have hexec := exec_drwVxVyN_ok x y hfits
  rw [hdraw] at hexec
  have hread := fun q => readReg_writeFlag q hit { advancePc s with fb := fb }
  refine ⟨_, hexec, hpix, fun hcollides => ?one, fun hclear => ?zero, fun q hq => (hread q).trans (if_neg hq), rfl,
    (timersStepped_timerStep _).congr_left rfl rfl, rfl⟩
  case one => exact (hread 0xF).trans ((flagByte_eq_one_iff hit).2 (hhit.2 hcollides))
  case zero =>
    have hnone : hit = false := Bool.eq_false_iff.2 fun h =>
      have ⟨r, c, hrc⟩ := hhit.1 h
      hclear r c hrc
    exact (hread 0xF).trans ((flagByte_eq_zero_iff hit).2 hnone)

/-- Settles O35, by the blank screen that CLS leaves. -/
theorem clearScreen : Obligations.ClearScreen :=
  ⟨decodeWord_encode .cls,
    fun s => ⟨_, exec_cls s, pixel_blank, rfl, (timersStepped_timerStep _).congr_left rfl rfl, rfl⟩⟩

end Sys2Proof.Machine

/-! PROOFS. The keypad: the jump that a skip on a key makes, what the key wait does with a key pressed and with none, and the
statements that collect them (R97 to R99). -/

namespace Sys2Proof.Machine

/-! ## The key wait -/

/-- R99: with a highest pressed key, its number is written to V[x]. -/
theorem loadKey_pressed (x : RegName) {s : State} {k : Fin 16} (hk : s.keys[k] = true)
    (hlast : ∀ j : Fin 16, k < j → s.keys[j] = false) : loadKey x s = writeReg x (BitVec.ofNat 8 k.val) s := by
  rw [loadKey, highestKey_eq_some hk hlast]

/-- R99: with no key pressed, pc is set back to the instruction. -/
theorem loadKey_none (x : RegName) {s : State} (h : ∀ k : Fin 16, s.keys[k] = false) : loadKey x s = rewindPc s := by
  rw [loadKey, highestKey_eq_none h]

/-- R99: with a highest pressed key, LD Vx,K is that register write between the pc advance and the timer step. -/
theorem exec_ldVxK_pressed (x : RegName) {s : State} {k : Fin 16} (hk : s.keys[k] = true)
    (hlast : ∀ j : Fin 16, k < j → s.keys[j] = false) :
    exec (.ldVxK x) s = .next (timerStep (writeReg x (BitVec.ofNat 8 k.val) (advancePc s))) :=
  (complete_eq (loadKey x) s).trans (by rw [loadKey_pressed (s := advancePc s) x hk hlast])

/-- R99: with no key pressed, LD Vx,K takes its pc advance back and is the timer step alone. -/
theorem exec_ldVxK_none (x : RegName) {s : State} (h : ∀ k : Fin 16, s.keys[k] = false) :
    exec (.ldVxK x) s = .next (timerStep s) :=
  (complete_eq (loadKey x) s).trans (by rw [loadKey_none (s := advancePc s) x h, rewindPc_advancePc])

/-- A key's number fits in a register (R99). -/
theorem toNat_ofNat_key (k : Fin 16) : (BitVec.ofNat 8 k.val).toNat = k.val :=
  (BitVec.toNat_ofNat k.val 8).trans (Nat.mod_eq_of_lt (k.isLt.trans (by decide)))

/-! ## The skips -/

/-- R97: SKP Vx skips when the key V[x] mod 16 is pressed. -/
theorem exec_skpVx (x : RegName) (s : State) :
    exec (.skpVx x) s = .next (timerStep (jumpTo (if keyNamed s (readReg s x) = true then s.pc + 4 else s.pc + 2) s)) :=
  complete_skipIf (condition := fun t => keyNamed t (readReg t x)) rfl

/-- R98: SKNP Vx skips when the key V[x] mod 16 is not pressed. -/
theorem exec_sknpVx (x : RegName) (s : State) :
    exec (.sknpVx x) s = .next (timerStep (jumpTo (if keyNamed s (readReg s x) = true then s.pc + 2 else s.pc + 4) s)) :=
  (complete_skipIf (condition := fun t => !keyNamed t (readReg t x)) rfl).trans
    (by simp only [Bool.not_eq_true', ← Bool.not_eq_true, ite_not])

/-! ## The statements -/

/-- Settles O39, by the register write of the highest pressed key, and by the timer step alone where no key is pressed. -/
theorem keyWaitTakesTheHighestKey : Obligations.KeyWaitTakesTheHighestKey := by
  intro x s
  refine ⟨decodeWord_encode (.ldVxK x), fun k hk hlast => ?pressed, fun hnone => ?waiting⟩
  case pressed =>
    obtain ⟨t, ht, hread, hframe⟩ := exec_of_writeReg (exec_ldVxK_pressed x hk hlast)
    refine ⟨t, ht, fun r => ?_, hframe⟩
    rw [hread, apply_ite BitVec.toNat, toNat_ofNat_key]
  case waiting => exact ⟨_, exec_ldVxK_none x hnone, timersStepped_timerStep s, rfl⟩

/-- Settles O38, by the jump each of the two instructions makes. -/
theorem skipOnKey : Obligations.SkipOnKey := by
  intro x s
  refine ⟨⟨decodeWord_encode (.skpVx x), ?skp⟩, ⟨decodeWord_encode (.sknpVx x), ?sknp⟩⟩
  case skp => exact ⟨_, exec_skpVx x s, rfl, timersStepped_jumpTo _ s, rfl⟩
  case sknp => exact ⟨_, exec_sknpVx x s, rfl, timersStepped_jumpTo _ s, rfl⟩

end Sys2Proof.Machine

/-! PROOFS. Memory block transfer: the bytes that a store from I on leaves in memory, the state each of LD [I],Vx, LD Vx,[I] and
LD B,Vx answers, and the statements that collect them (R103 to R105, R112). -/

namespace Sys2Proof.Machine

/-! ## Bytes stored from I on -/

section
variable {bs : List Byte} {s : State}

/-- R38: in a canonical memory, bytes stored from I on and inside memory are read back, and every other byte is as before. -/
theorem memByte_storeAtI (hwf : Memory.wf s.mem = true) (hfits : s.idx.toNat + bs.length ≤ 0x1000) (a : Nat) :
    memByte (storeAtI bs s) a = byteAfterStore bs s a :=
  readCell_writeCells hwf s.idx.toNat bs hfits a

/-- After a store, byte `j` from I is byte `j` of the stored bytes. -/
theorem byteAfterStore_idx_add {j : Nat} (hj : j < bs.length) : byteAfterStore bs s (s.idx.toNat + j) = bs.getD j 0 := by
  rw [byteAfterStore, if_pos (by omega), Nat.add_sub_cancel_left]

/-- Outside the stored range, a byte is what it was before the store. -/
theorem byteAfterStore_outside {a : Nat} (ha : a < s.idx.toNat ∨ s.idx.toNat + bs.length ≤ a) :
    byteAfterStore bs s a = memByte s a :=
  if_neg (by omega)

/-- The cycle of an instruction that stores bytes from I on, all of them inside memory: beside memory only pc and the timers
differ, and a canonical memory then holds the stored bytes (R38, R62, R65). -/
theorem exec_of_storeAtI {i : Instr} (h : exec i s = .next (timerStep (storeAtI bs (advancePc s))))
    (hfits : s.idx.toNat + bs.length ≤ 0x1000) :
    ∃ t, exec i s = .next t ∧ (Memory.wf s.mem = true → ∀ a, memByte t a = byteAfterStore bs s a) ∧
      t.pc = s.pc + 2 ∧ TimersStepped s t ∧ t = { s with mem := t.mem, pc := t.pc, dt := t.dt, st := t.st } :=
  ⟨_, h, fun hwf => memByte_storeAtI (s := advancePc s) hwf hfits, rfl, (timersStepped_timerStep _).congr_left rfl rfl, rfl⟩

end

/-! ## The bytes that the two stores write -/

/-- R103: V[0] to V[x] are x + 1 bytes. -/
@[simp] theorem length_regsUpTo (x : RegName) (s : State) : (regsUpTo x s).length = x.toNat + 1 := by
  have hx : x.toNat + 1 ≤ 16 := x.isLt
  rw [regsUpTo, List.length_take, Vector.length_toList, Nat.min_eq_left hx]

/-- R103: byte `j` of V[0] to V[x] is V[j]. -/
theorem getD_regsUpTo {x j : RegName} (hj : j.toNat ≤ x.toNat) (s : State) :
    (regsUpTo x s).getD j.toNat 0 = readReg s j := by
  have hlen : j.toNat < (regsUpTo x s).length := by rw [length_regsUpTo]; omega
  rw [← List.getElem_eq_getD (h := hlen)]
  simp only [regsUpTo, List.getElem_take, Vector.getElem_toList, readReg]

/-- R105: the bytes stored are the hundreds, the tens and the ones digit. -/
theorem map_toNat_decimalDigits (b : Byte) :
    (decimalDigits b).map BitVec.toNat = [b.toNat / 100, b.toNat / 10 % 10, b.toNat % 10] := by
  have hb : b.toNat < 256 := b.isLt
  simp only [decimalDigits, List.map_cons, List.map_nil, BitVec.toNat_ofNat, List.cons.injEq, and_true]
  omega

/-! ## What the three instructions do where every byte lies in memory -/

/-- R103: LD [I],Vx stores V[0] to V[x] between the pc advance and the timer step. -/
theorem exec_ldMemIVx_ok {x : RegName} {s : State} (h : s.idx.toNat + x.toNat ≤ 0xFFF) :
    exec (.ldMemIVx x) s = .next (timerStep (storeAtI (regsUpTo x s) (advancePc s))) :=
  cycle_onBytesAtI_ok _ (by omega)

/-- R104: LD Vx,[I] loads V[0] to V[x] between the pc advance and the timer step. -/
theorem exec_ldVxMemI_ok {x : RegName} {s : State} (h : s.idx.toNat + x.toNat ≤ 0xFFF) :
    exec (.ldVxMemI x) s = .next (timerStep (loadRegsAtI x (advancePc s))) :=
  cycle_onBytesAtI_ok _ (by omega)

/-- R105: LD B,Vx stores the digits of V[x] between the pc advance and the timer step. -/
theorem exec_ldBVx_ok (x : RegName) {s : State} (h : s.idx.toNat + 2 ≤ 0xFFF) :
    exec (.ldBVx x) s = .next (timerStep (storeAtI (decimalDigits (readReg s x)) (advancePc s))) :=
  cycle_onBytesAtI_ok _ (by omega)

/-! ## The statements -/

/-- Settles O42, by the bytes that a store of V[0] to V[x] leaves, and by the bounds check before it. -/
theorem storeRegistersAtIndex : Obligations.StoreRegistersAtIndex := by
  intro x s
  refine ⟨decodeWord_encode (.ldMemIVx x), fun hfits => ?_, fun h => cycle_onBytesAtI_error _ (by omega) (by omega)⟩
  obtain ⟨t, ht, hmem, hframe⟩ := exec_of_storeAtI (exec_ldMemIVx_ok hfits) (by rw [length_regsUpTo]; omega)
  refine ⟨t, ht, fun hwf => ⟨fun j hj => ?inside, fun a ha => ?outside⟩, hframe⟩
  case inside =>
    rw [hmem hwf, byteAfterStore_idx_add (by rw [length_regsUpTo]; omega), getD_regsUpTo hj]
  case outside =>
    rw [hmem hwf, byteAfterStore_outside (by rw [length_regsUpTo]; omega)]

/-- Settles O43, by the registers that the load leaves, and by the bounds check before it. -/
theorem loadRegistersFromIndex : Obligations.LoadRegistersFromIndex := by
  intro x s
  refine ⟨decodeWord_encode (.ldVxMemI x), fun hfits => ?_, fun h => cycle_onBytesAtI_error _ (by omega) (by omega)⟩
  exact ⟨_, exec_ldVxMemI_ok hfits, fun j => readReg_loadRegsAtI x j (advancePc s), writesOnlyRegisters_timerStep _ s⟩

/-- Settles O44, by the bytes that a store of the three digits leaves, and by the bounds check before it. -/
theorem storeDecimalDigits : Obligations.StoreDecimalDigits := by
  intro x s
  refine ⟨decodeWord_encode (.ldBVx x), fun hfits => ?_, fun h => cycle_onBytesAtI_error _ (by omega) (by omega)⟩
  obtain ⟨t, ht, hmem, hframe⟩ := exec_of_storeAtI (exec_ldBVx_ok x hfits) (Nat.succ_le_succ hfits)
  refine ⟨t, ht, fun hwf => ?_, hframe⟩
  have hdigit (j : Nat) (hj : j < 3) : (memByte t (s.idx.toNat + j)).toNat =
      [(readReg s x).toNat / 100, (readReg s x).toNat / 10 % 10, (readReg s x).toNat % 10].getD j 0 := by
    rw [hmem hwf, byteAfterStore_idx_add hj, ← map_toNat_decimalDigits]
    exact (List.getD_map _ 0 BitVec.toNat).symm
  refine ⟨hdigit 0 (by decide), hdigit 1 (by decide), hdigit 2 (by decide), fun a ha => ?_⟩
  exact (hmem hwf a).trans (byteAfterStore_outside (ha.imp_right Nat.succ_le_of_lt))

end Sys2Proof.Machine

/-! PROOFS. Fatal conditions: a cycle latches exactly the condition that the table of causes names and keeps everything else, or
completes with FAULT as it was; while FAULT is set only an accepted RESET leads out; and the statements that collect these facts
(R110 to R114, R118, R119). -/

namespace Sys2Proof.Machine

/-! ## What a cycle does to FAULT -/

/-- A cycle from `s` that `cause` decides: it latches the condition and keeps everything else (R118), or, with no condition, it
completes and keeps FAULT. -/
def LatchesExactly (cause : Option Fault) (s : State) (outcome : Host.Outcome State Fault Refusal) : Prop :=
  match cause with
  | some c => outcome = .next { s with fault := some c }
  | none => ∃ t, outcome = .next t ∧ t.fault = s.fault

/-- R112: a bounds-checked effect that keeps FAULT latches exactly what the check of its bytes finds. -/
theorem cycle_onBytesAtI_latchesExactly (count : Nat) {effect : State → State} (heffect : ∀ t, (effect t).fault = t.fault)
    (s : State) : LatchesExactly (dataFault s.idx.toNat count) s (cycle (onBytesAtI count effect) s) := by
  rw [← boundsFault_eq_dataFault, ← advancePc_idx s]
  obtain ⟨hnone, hok⟩ | ⟨c, hsome, herror⟩ := onBytesAtI_cases count effect (advancePc s)
  · rw [hnone]
    exact ⟨_, cycle_ok hok, heffect (advancePc s)⟩
  · rw [hsome]
    exact cycle_error herror

/-- R113: CALL latches StackOverflow exactly at SP = 16. -/
theorem exec_callAddr_latchesExactly (nnn : Addr) (s : State) :
    LatchesExactly (instrFault (.callAddr nnn) s) s (exec (.callAddr nnn) s) := by
  by_cases hfull : s.sp.val = 16
  · rw [instrFault, if_pos hfull]
    exact exec_callAddr_full nnn hfull
  · rw [instrFault, if_neg hfull]
    exact ⟨_, exec_callAddr_ok nnn (by omega), rfl⟩

/-- R114: RET latches StackUnderflow exactly at SP = 0. -/
theorem exec_ret_latchesExactly (s : State) : LatchesExactly (instrFault .ret s) s (exec .ret s) := by
  by_cases hempty : s.sp.val = 0
  · rw [instrFault, if_pos hempty]
    exact exec_ret_empty hempty
  · rw [instrFault, if_neg hempty]
    exact ⟨_, exec_ret_ok (Nat.pos_of_ne_zero hempty), rfl⟩

@[simp] theorem drawSprite_fault (x y : RegName) (n : Nibble) (s : State) : (drawSprite x y n s).fault = s.fault := rfl

@[simp] theorem loadKey_fault (x : RegName) (s : State) : (loadKey x s).fault = s.fault := by
  unfold loadKey
  split <;> simp

/-- R110, R118: every instruction latches exactly the condition of its row in the table of causes. The two stack instructions and
the four memory instructions can raise; the effect of any other keeps FAULT. -/
theorem exec_latchesExactly (i : Instr) (s : State) : LatchesExactly (instrFault i s) s (exec i s) := by
  cases i with
  | ret => exact exec_ret_latchesExactly s
  | callAddr nnn => exact exec_callAddr_latchesExactly nnn s
  | drwVxVyN | ldBVx | ldMemIVx | ldVxMemI =>
    refine cycle_onBytesAtI_latchesExactly _ (fun t => ?_) s
    simp
  | _ => exact ⟨_, rfl, by simp⟩

/-- R110, R111, R118: every cycle of a running machine latches exactly the condition that the table of causes names. -/
theorem step_latchesExactly {s : State} (hr : Running s) : LatchesExactly (nextFault s) s (step s) := by
  unfold nextFault
  split
  next hpc => exact step_unfetchable hr (Nat.not_le_of_lt hpc)
  next hpc =>
    rw [step_fetchable hr (Nat.le_of_not_lt hpc)]
    split
    next i hi =>
      rw [runWord_some exec hi]
      exact exec_latchesExactly i s
    next hnone => exact ⟨_, runWord_none exec hnone s, rfl⟩

/-! ## The reported address -/

/-- R112: the row of a memory instruction in the table of causes is the check of the bytes it touches. -/
theorem instrFault_of_dataCount {i : Instr} {count : Nat} (h : dataCount i = some count) (s : State) :
    instrFault i s = dataFault s.idx.toNat count := by
  cases i <;> cases h <;> rfl

/-- R110: OutOfBounds is raised by no instruction but the four memory instructions. -/
theorem exists_dataCount_of_instrFault {i : Instr} {s : State} {a : Word} (h : instrFault i s = some (.outOfBounds a)) :
    ∃ count, dataCount i = some count := by
  cases i with
  | drwVxVyN | ldBVx | ldMemIVx | ldVxMemI => exact ⟨_, rfl⟩
  | ret | callAddr =>
    rw [instrFault] at h
    split at h <;> cases h
  | _ => cases h

/-- R110: the check of bytes from I on reports an address outside memory. -/
theorem dataFault_address {base a : Word} {count : Nat} (h : dataFault base.toNat count = some (.outOfBounds a)) :
    0x1000 ≤ a.toNat := by
  rw [← boundsFault_eq_dataFault] at h
  obtain ⟨a', ha, hle⟩ := boundsFault_address base.isLt h
  cases ha
  exact hle

/-- R110, R111: a failed fetch reports an address outside memory. -/
theorem fetchFault_address {pc : Word} (h : 0xFFE < pc.toNat) : 0x1000 ≤ (if pc = 0xFFF then 0x1000 else pc).toNat := by
  split
  · decide
  · bv_omega

/-- R110: whatever raises OutOfBounds, its address lies outside memory. -/
theorem nextFault_address {s : State} {a : Word} (h : nextFault s = some (.outOfBounds a)) : 0x1000 ≤ a.toNat := by
  unfold nextFault at h
  split at h
  next hpc =>
    cases h
    exact fetchFault_address hpc
  next =>
    split at h
    next i _ =>
      obtain ⟨count, hcount⟩ := exists_dataCount_of_instrFault h
      exact dataFault_address ((instrFault_of_dataCount hcount s).symm.trans h)
    next => cases h

/-! ## A latched machine and the host's moves -/

/-- A set latch is no running machine (R21). -/
theorem not_running_of_fault {s : State} {c : Fault} (h : s.fault = some c) : ¬ Running s := by
  simp [Running, h]

/-- R130: after the RESET of an image that fits, the machine is in the state built from it. -/
theorem afterMove_reset_of_length_le {rom : List Byte} (h : rom.length ≤ 3584) (s : State) :
    afterMove (.reset rom) s = loaded rom s := by
  simp only [afterMove, hostMove, resetRom_of_length_le h]

/-- R119: CYCLE changes nothing in a latched machine. -/
theorem afterMove_cycle_latched (rand : Byte) {s : State} {c : Fault} (h : s.fault = some c) :
    afterMove (.cycle rand) s = s := by
  simp only [afterMove, hostMove, cycleWith, cycleBy_latched (execWith rand) h]

/-- R119, R126: of the host's moves, exactly the RESET of an image that fits starts a latched machine. -/
theorem running_afterMove_latched_iff {s : State} {c : Fault} (h : s.fault = some c) (move : HostMove) :
    Running (afterMove move s) ↔ ∃ rom, move = .reset rom ∧ rom.length ≤ 3584 := by
  have hstuck : ¬ Running s := not_running_of_fault h
  cases move with
  | reset rom =>
    by_cases hfits : rom.length ≤ 3584
    · rw [afterMove_reset_of_length_le hfits]
      exact iff_of_true rfl ⟨rom, rfl, hfits⟩
    · rw [afterMove_reset_of_lt_length (Nat.lt_of_not_le hfits)]
      refine iff_of_false hstuck ?_
      rintro ⟨rom', hrom, hfits'⟩
      cases hrom
      exact hfits hfits'
  | setKeys k => exact iff_of_false (not_running_of_fault (s := setKeys k s) h) (by simp)
  | cycle rand =>
    rw [afterMove_cycle_latched rand h]
    exact iff_of_false hstuck (by simp)

/-! ## The statements -/

/-- Settles O13: a running machine has no condition latched, so what its step latches is the whole of FAULT afterwards. -/
theorem onlyTheListedCausesRaise : Obligations.OnlyTheListedCausesRaise := by
  refine ⟨fun s t hr hstep => ?_, fun s a => nextFault_address, fun _ => rfl, rfl, rfl⟩
  have hlatch := step_latchesExactly hr
  cases hcause : nextFault s with
  | some c =>
    rw [hcause] at hlatch
    cases hlatch.symm.trans hstep
    rfl
  | none =>
    rw [hcause] at hlatch
    obtain ⟨t', ht', hfault⟩ := hlatch
    cases ht'.symm.trans hstep
    exact hfault.trans hr

/-- Settles O14, by what the step latches where the table of causes names a condition. -/
theorem fatalConditionIsPrecise : Obligations.FatalConditionIsPrecise := by
  intro s c hr hcause
  have hlatch := step_latchesExactly hr
  rwa [hcause] at hlatch

/-- Settles O15, by what a memory instruction latches with the check of its bytes failed and passed. -/
theorem dataAccessIsCheckedBeforeAnyEffect : Obligations.DataAccessIsCheckedBeforeAnyEffect := by
  intro i count s hcount
  have hlatch := exec_latchesExactly i s
  rw [instrFault_of_dataCount hcount, dataFault] at hlatch
  refine ⟨fun hpos hout => ?outside, fun hfits => ?inside⟩
  case outside => rwa [if_pos ⟨hpos, hout⟩] at hlatch
  case inside => rwa [if_neg (by omega)] at hlatch

/-- Settles O16, by the cycle that a set latch stops, which looks at no key, and by the host's moves one by one. -/
theorem latchedMachineIsStuckUntilReset : Obligations.LatchedMachineIsStuckUntilReset := fun s _ h =>
  ⟨step_latched h, fun k => ⟨h, step_latched (s := setKeys k s) h⟩, running_afterMove_latched_iff h⟩

/-- Settles O9, by the step that cannot fetch; the statement names pc = 0xFFF by its value. -/
theorem fetchOutOfBoundsIsLatched : Obligations.FetchOutOfBoundsIsLatched := by
  intro s hr hpc
  have hlast : s.pc.toNat = 0xFFF ↔ s.pc = 0xFFF := BitVec.toNat_inj (y := 0xFFF)
  simp only [hlast]
  exact step_unfetchable hr (Nat.not_le_of_lt hpc)

end Sys2Proof.Machine

/-! PROOFS. The encoding: the decoder and the encoder undo each other, a word that matches a row of the opcode table decodes to an
instruction of that row, and the unknown words are those of six classes (R45 to R51). -/

namespace Sys2Proof

open Sys2Proof.Machine (decodeWord_encode)

/-! ## Decoding an encoded instruction -/

/-- R45: the bytes of an instruction, in front of any rest, are read back as it. -/
theorem decodeBytes_encodeBytes_append (i : Instr) (rest : List Byte) :
    decodeBytes (encodeBytes i ++ rest) = .ok (i, rest) := by
  obtain ⟨hi, lo, hbytes, hword⟩ := bytesOfWord_eq (encode i)
  simp [encodeBytes, hbytes, decodeBytes, hword, decodeWord_encode]

/-! ## Encoding a decoded instruction -/

section
variable {w : Word} {i : Instr}

/-- A word of format NNN is assembled from its major opcode, given as a number, and its `nnn` field. -/
theorem encodeNnn_of_fields {n1 : Nibble} (h : (fieldN1 w).toNat = n1.toNat) : encodeNnn n1 (fieldNnn w) = w := by
  rw [← BitVec.eq_of_toNat_eq h, encodeNnn_fields]

/-- A word of formats XNN and X is assembled from its major opcode, given as a number, and its other fields. -/
theorem encodeXnn_of_fields {n1 : Nibble} {nn : Byte} (h : (fieldN1 w).toNat = n1.toNat) (hnn : fieldNn w = nn) :
    encodeXnn n1 (fieldX w) nn = w := by
  rw [← BitVec.eq_of_toNat_eq h, ← hnn, encodeXnn_fields]

/-- A word of formats XY and XYN is assembled from its major opcode and its `n4`, given as numbers, and its other fields. -/
theorem encodeXyn_of_fields {n1 n : Nibble} (h : (fieldN1 w).toNat = n1.toNat) (hn : (fieldN w).toNat = n.toNat) :
    encodeXyn n1 (fieldX w) (fieldY w) n = w := by
  rw [← BitVec.eq_of_toNat_eq h, ← BitVec.eq_of_toNat_eq hn, encodeXyn_fields]

theorem encode_of_decode0 (h : decode0 w = some i) : encode i = w := by
  unfold decode0 at h
  split_ifs at h with hw hw <;>
    · cases h
      exact hw.symm

theorem encode_of_decode8 (hn1 : (fieldN1 w).toNat = 0x8) (h : decode8 w = some i) : encode i = w := by
  unfold decode8 at h
  split at h <;> cases h <;>
    exact encodeXyn_of_fields hn1 ‹_›

theorem encode_of_decodeE (hn1 : (fieldN1 w).toNat = 0xE) (h : decodeE w = some i) : encode i = w := by
  unfold decodeE at h
  split_ifs at h with hnn hnn <;>
    · cases h
      exact encodeXnn_of_fields hn1 hnn

theorem encode_of_decodeF (hn1 : (fieldN1 w).toNat = 0xF) (h : decodeF w = some i) : encode i = w := by
  unfold decodeF at h
  split_ifs at h with hnn hnn hnn hnn hnn hnn hnn hnn hnn <;>
    · cases h
      exact encodeXnn_of_fields hn1 hnn

/-- R50: no bit of a defined word is dropped: the fields kept by the instruction, with those that its major opcode and its row
fix, are the whole word. -/
theorem encode_of_decodeWord (h : decodeWord w = some i) : encode i = w := by
  unfold decodeWord at h
  split at h
  case h_1 => exact encode_of_decode0 h
  case h_9 hn1 => exact encode_of_decode8 hn1 h
  case h_15 hn1 => exact encode_of_decodeE hn1 h
  case h_16 hn1 => exact encode_of_decodeF hn1 h
  case h_6 | h_10 =>
    split_ifs at h with hn
    cases h
    exact encodeXyn_of_fields ‹_› (congrArg BitVec.toNat hn)
  case h_2 | h_3 | h_11 | h_12 =>
    cases h
    exact encodeNnn_of_fields ‹_›
  case h_4 | h_5 | h_7 | h_8 | h_13 =>
    cases h
    exact encodeXnn_of_fields ‹_› rfl
  case h_14 hn1 =>
    cases h
    exact encodeXyn_of_fields hn1 rfl
  case h_17 => cases h

end

/-! ## Rows and the decoder -/

/-- R49: an instruction's row is in the opcode table, and its word matches it. -/
theorem encodesInRow : ∀ i : Instr, Laws.EncodesInRow.Statement i
  | .cls => Laws.EncodesInRow.cls
  | .ret => Laws.EncodesInRow.ret
  | .jpAddr nnn => Laws.EncodesInRow.jpAddr nnn
  | .callAddr nnn => Laws.EncodesInRow.callAddr nnn
  | .seVxNn x nn => Laws.EncodesInRow.seVxNn x nn
  | .sneVxNn x nn => Laws.EncodesInRow.sneVxNn x nn
  | .seVxVy x y => Laws.EncodesInRow.seVxVy x y
  | .ldVxNn x nn => Laws.EncodesInRow.ldVxNn x nn
  | .addVxNn x nn => Laws.EncodesInRow.addVxNn x nn
  | .ldVxVy x y => Laws.EncodesInRow.ldVxVy x y
  | .orVxVy x y => Laws.EncodesInRow.orVxVy x y
  | .andVxVy x y => Laws.EncodesInRow.andVxVy x y
  | .xorVxVy x y => Laws.EncodesInRow.xorVxVy x y
  | .addVxVy x y => Laws.EncodesInRow.addVxVy x y
  | .subVxVy x y => Laws.EncodesInRow.subVxVy x y
  | .shrVx x y => Laws.EncodesInRow.shrVx x y
  | .subnVxVy x y => Laws.EncodesInRow.subnVxVy x y
  | .shlVx x y => Laws.EncodesInRow.shlVx x y
  | .sneVxVy x y => Laws.EncodesInRow.sneVxVy x y
  | .ldINnn nnn => Laws.EncodesInRow.ldINnn nnn
  | .jpV0Addr nnn => Laws.EncodesInRow.jpV0Addr nnn
  | .rndVxNn x nn => Laws.EncodesInRow.rndVxNn x nn
  | .drwVxVyN x y n => Laws.EncodesInRow.drwVxVyN x y n
  | .skpVx x => Laws.EncodesInRow.skpVx x
  | .sknpVx x => Laws.EncodesInRow.sknpVx x
  | .ldVxDT x => Laws.EncodesInRow.ldVxDT x
  | .ldVxK x => Laws.EncodesInRow.ldVxK x
  | .ldDTVx x => Laws.EncodesInRow.ldDTVx x
  | .ldSTVx x => Laws.EncodesInRow.ldSTVx x
  | .addIVx x => Laws.EncodesInRow.addIVx x
  | .ldFVx x => Laws.EncodesInRow.ldFVx x
  | .ldBVx x => Laws.EncodesInRow.ldBVx x
  | .ldMemIVx x => Laws.EncodesInRow.ldMemIVx x
  | .ldVxMemI x => Laws.EncodesInRow.ldVxMemI x

section
variable {w w' : Word}

/-- Words that agree under the mask of `n1` have the same major opcode (R47). -/
theorem fieldN1_congr (h : w &&& 0xF000 = w' &&& 0xF000) : fieldN1 w = fieldN1 w' := by
  have hn1 := congrArg fieldN1 h
  simp only [fieldN1, BitVec.extractLsb'_and] at hn1
  exact BitVec.and_allOnes.symm.trans (hn1.trans BitVec.and_allOnes)

/-- Words that agree under the mask of `n1` and `n4` have both in common (R47). -/
theorem fieldN1_fieldN_congr (h : w &&& 0xF00F = w' &&& 0xF00F) : fieldN1 w = fieldN1 w' ∧ fieldN w = fieldN w' := by
  have hn1 := congrArg fieldN1 h
  have hn := congrArg fieldN h
  simp only [fieldN1, fieldN, BitVec.extractLsb'_and] at hn1 hn
  exact ⟨BitVec.and_allOnes.symm.trans (hn1.trans BitVec.and_allOnes),
    BitVec.and_allOnes.symm.trans (hn.trans BitVec.and_allOnes)⟩

/-- Words that agree under the mask of `n1` and `nn` have both in common (R47). -/
theorem fieldN1_fieldNn_congr (h : w &&& 0xF0FF = w' &&& 0xF0FF) :
    fieldN1 w = fieldN1 w' ∧ fieldNn w = fieldNn w' := by
  have hn1 := congrArg fieldN1 h
  have hnn := congrArg fieldNn h
  simp only [fieldN1, fieldNn, BitVec.extractLsb'_and] at hn1 hnn
  exact ⟨BitVec.and_allOnes.symm.trans (hn1.trans BitVec.and_allOnes),
    BitVec.and_allOnes.symm.trans (hnn.trans BitVec.and_allOnes)⟩

/-- R47, R49: a word that matches an instruction's row decodes, to an instruction of the same row. The word agrees with the
instruction's own under the row's mask, and the bits under the mask are those the decoder looks at. -/
theorem decodeWord_of_matchesRow {i : Instr} (h : matchesRow w (rowOf i) = true) :
    ∃ i', decodeWord w = some i' ∧ rowOf i' = rowOf i := by
  have hagree : w &&& (rowOf i).1 = encode i &&& (rowOf i).1 :=
    (eq_of_beq h).trans (eq_of_beq (encodesInRow i).2).symm
  cases i with
  | cls | ret =>
    have hw := BitVec.and_allOnes.symm.trans (hagree.trans BitVec.and_allOnes)
    exact ⟨_, hw ▸ decodeWord_encode _, rfl⟩
  | seVxVy | ldVxVy | orVxVy | andVxVy | xorVxVy | addVxVy | subVxVy | shrVx | subnVxVy | shlVx | sneVxVy =>
    obtain ⟨hn1, hn⟩ := fieldN1_fieldN_congr hagree
    simp only [encode, fieldN1_encodeXyn, fieldN_encodeXyn] at hn1 hn
    rw [decodeWord, decode8, hn1, hn]
    exact ⟨_, rfl, rfl⟩
  | skpVx | sknpVx | ldVxDT | ldVxK | ldDTVx | ldSTVx | addIVx | ldFVx | ldBVx | ldMemIVx | ldVxMemI =>
    obtain ⟨hn1, hnn⟩ := fieldN1_fieldNn_congr hagree
    simp only [encode, fieldN1_encodeXnn, fieldNn_encodeXnn] at hn1 hnn
    rw [decodeWord, decodeE, decodeF, hn1, hnn]
    exact ⟨_, rfl, rfl⟩
  | _ =>
    have hn1 := fieldN1_congr hagree
    simp only [encode, fieldN1_encodeNnn, fieldN1_encodeXnn, fieldN1_encodeXyn] at hn1
    rw [decodeWord, hn1]
    exact ⟨_, rfl, rfl⟩

end

/-- One instruction of each row, in the table's order, every operand 0. -/
def instrOfEachRow : List Instr :=
  [.cls, .ret, .jpAddr 0, .callAddr 0, .seVxNn 0 0, .sneVxNn 0 0, .seVxVy 0 0, .ldVxNn 0 0, .addVxNn 0 0,
    .ldVxVy 0 0, .orVxVy 0 0, .andVxVy 0 0, .xorVxVy 0 0, .addVxVy 0 0, .subVxVy 0 0, .shrVx 0 0, .subnVxVy 0 0,
    .shlVx 0 0, .sneVxVy 0 0, .ldINnn 0, .jpV0Addr 0, .rndVxNn 0 0, .drwVxVyN 0 0 0, .skpVx 0, .sknpVx 0,
    .ldVxDT 0, .ldVxK 0, .ldDTVx 0, .ldSTVx 0, .addIVx 0, .ldFVx 0, .ldBVx 0, .ldMemIVx 0, .ldVxMemI 0]

/-- R49: every row of the opcode table is the row of an instruction. -/
theorem exists_rowOf_of_mem {row : Word × Word} (h : row ∈ opcodeRows) : ∃ i, rowOf i = row := by
  have htable : opcodeRows = instrOfEachRow.map rowOf := rfl
  rw [htable, List.mem_map] at h
  obtain ⟨i, -, hi⟩ := h
  exact ⟨i, hi⟩
/-! ## Unknown words -/

/-- One branch of a decoder's chain of tests: it leaves undefined what fails the test and the rest leaves undefined. -/
theorem ite_some_eq_none_iff {α : Type} {c : Prop} [Decidable c] {a : α} {rest : Option α} :
    (if c then some a else rest) = none ↔ ¬ c ∧ rest = none := by
  split <;> simp [*]

/-- R51: a word with `n1 = 0` is undefined unless it is CLS or RET. -/
theorem decode0_eq_none_iff (w : Word) : decode0 w = none ↔ w ≠ 0x00E0 ∧ w ≠ 0x00EE := by
  simp [decode0, ite_some_eq_none_iff]

/-- R51: the seven undefined values of `n4` under `n1 = 8`. -/
theorem decode8_eq_none_iff (w : Word) : decode8 w = none ↔ fieldN w ∈ [0x8, 0x9, 0xA, 0xB, 0xC, 0xD, 0xF] := by
  unfold decode8
  obtain ⟨n⟩ := fieldN w
  fin_cases n <;> simp

/-- R51: a word with `n1 = E` is undefined unless its `nn` is one of two. -/
theorem decodeE_eq_none_iff (w : Word) : decodeE w = none ↔ fieldNn w ∉ [0x9E, 0xA1] := by
  simp [decodeE, ite_some_eq_none_iff]

/-- R51: a word with `n1 = F` is undefined unless its `nn` is one of nine. -/
theorem decodeF_eq_none_iff (w : Word) :
    decodeF w = none ↔ fieldNn w ∉ [0x07, 0x0A, 0x15, 0x18, 0x1E, 0x29, 0x33, 0x55, 0x65] := by
  simp [decodeF, ite_some_eq_none_iff]

/-! ## The statements -/

/-- Settles O1, by the decoder's branch for each instruction's word, and by the word that the two bytes make. -/
theorem decodeInvertsEncode : Obligations.DecodeInvertsEncode := fun i _ =>
  ⟨decodeWord_encode i, decodeBytes_encodeBytes_append i⟩

/-- Settles O2, branch by branch of the decoder. -/
theorem encodeInvertsDecode : Obligations.EncodeInvertsDecode := fun _ _ => encode_of_decodeWord

/-- Settles O3: a word that matches two rows decodes to an instruction of each, and it decodes to one instruction only. -/
theorem opcodeRowsAreDisjoint : Obligations.OpcodeRowsAreDisjoint := by
  intro w row row' hrow hrow' hmatch hmatch'
  obtain ⟨i, rfl⟩ := exists_rowOf_of_mem hrow
  obtain ⟨j, rfl⟩ := exists_rowOf_of_mem hrow'
  obtain ⟨i', hi, hrowi⟩ := decodeWord_of_matchesRow hmatch
  obtain ⟨j', hj, hrowj⟩ := decodeWord_of_matchesRow hmatch'
  cases hi.symm.trans hj
  exact hrowi.symm.trans hrowj

/-- Settles O4: a decoded word is the word of its instruction and so matches that row, and a word that matches a row decodes. -/
theorem unknownWordsMatchNoRow : Obligations.UnknownWordsMatchNoRow := by
  intro w
  constructor
  · intro hnone row hrow
    obtain ⟨i, rfl⟩ := exists_rowOf_of_mem hrow
    refine Bool.eq_false_iff.2 fun hmatch => ?_
    obtain ⟨i', hi, -⟩ := decodeWord_of_matchesRow hmatch
    cases hnone.symm.trans hi
  · intro hno
    refine Option.eq_none_iff_forall_ne_some.2 fun i hi => ?_
    obtain ⟨hmem, hmatch⟩ := encodesInRow i
    rw [encode_of_decodeWord hi, hno _ hmem] at hmatch
    cases hmatch

/-- Settles O5, by the major opcode: each class is the undefined part of the decoder's branch for one of them, and the other
branches leave no word undefined. -/
theorem unknownWordClasses : Obligations.UnknownWordClasses := by
  intro w
  rw [← decode0_eq_none_iff, ← decode8_eq_none_iff, ← decodeE_eq_none_iff, ← decodeF_eq_none_iff]
  unfold decodeWord
  obtain ⟨n1⟩ := fieldN1 w
  fin_cases n1 <;> simp

/-- Settles O6, by evaluating the decoder on each word. -/
theorem decodesWordsOfEachFamily : Obligations.DecodesWordsOfEachFamily := by
  unfold Obligations.DecodesWordsOfEachFamily
  decide

end Sys2Proof

/-! PROOFS. The whole cycle as one equation: what an instruction does once its checks have passed, the state in which its cycle
ends, and what follows for every step at once: it completes, it runs the decoded instruction, and it is the host's cycle with the
free byte (R60 to R63, R94). -/

namespace Sys2Proof.Machine

/-! ## The state in which an instruction's cycle ends -/

/-- What an instruction does between the pc advance and the timer step, where it raises nothing; `rand` is the cycle's random
byte. On states in which it raises a condition the value is of no account. -/
def effectWith (rand : Byte) (i : Instr) (s : State) : State :=
  match i with
  | .cls => { s with fb := Vector.replicate 32 (Vector.replicate 64 false) }
  | .ret => { s with sp := ⟨s.sp.val - 1, by omega⟩, pc := s.stack[s.sp.val - 1]'(by omega) }
  | .jpAddr nnn => jumpTo (zextAddr nnn) s
  | .callAddr nnn => { s with
      pc := zextAddr nnn
      stack := s.stack.setIfInBounds s.sp.val s.pc
      sp := ⟨min (s.sp.val + 1) 16, by omega⟩ }
  | .seVxNn x nn => skipIf (readReg s x == nn) s
  | .sneVxNn x nn => skipIf (readReg s x != nn) s
  | .seVxVy x y => skipIf (readReg s x == readReg s y) s
  | .ldVxNn x nn => writeReg x nn s
  | .addVxNn x nn => writeReg x (readReg s x + nn) s
  | .ldVxVy x y => writeReg x (readReg s y) s
  | .orVxVy x y => writeReg x (readReg s x ||| readReg s y) s
  | .andVxVy x y => writeReg x (readReg s x &&& readReg s y) s
  | .xorVxVy x y => writeReg x (readReg s x ^^^ readReg s y) s
  | .addVxVy x y => writeResultAndFlag x (readReg s x + readReg s y) (carryFlag (readReg s x) (readReg s y)) s
  | .subVxVy x y => writeResultAndFlag x (readReg s x - readReg s y) (greaterFlag (readReg s x) (readReg s y)) s
  | .shrVx x _ => writeResultAndFlag x (readReg s x >>> 1) (lowBitFlag (readReg s x)) s
  | .subnVxVy x y => writeResultAndFlag x (readReg s y - readReg s x) (lessFlag (readReg s x) (readReg s y)) s
  | .shlVx x _ => writeResultAndFlag x (readReg s x <<< 1) (highBitFlag (readReg s x)) s
  | .sneVxVy x y => skipIf (readReg s x != readReg s y) s
  | .ldINnn nnn => writeIdx (zextAddr nnn) s
  | .jpV0Addr nnn => jumpTo (offsetTarget nnn (readReg s v0)) s
  | .rndVxNn x nn => countDraw (randomMasked rand x nn s)
  | .drwVxVyN x y n => drawSprite x y n s
  | .skpVx x => skipIf (keyNamed s (readReg s x)) s
  | .sknpVx x => skipIf (!keyNamed s (readReg s x)) s
  | .ldVxDT x => writeReg x s.dt s
  | .ldVxK x => loadKey x s
  | .ldDTVx x => { s with dt := readReg s x }
  | .ldSTVx x => { s with st := readReg s x }
  | .addIVx x => writeIdx (s.idx + zextByte (readReg s x)) s
  | .ldFVx x => writeIdx (glyphAddress (readReg s x)) s
  | .ldBVx x => storeAtI (decimalDigits (readReg s x)) s
  | .ldMemIVx x => storeAtI (regsUpTo x s) s
  | .ldVxMemI x => loadRegsAtI x s

/-- The state in which an instruction's cycle ends: with a condition latched and nothing else changed (R118), or after the pc
advance, the instruction's effect and the timer step (R60). -/
def afterExec (rand : Byte) (i : Instr) (s : State) : State :=
  match instrFault i s with
  | some c => { s with fault := some c }
  | none => timerStep (effectWith rand i (advancePc s))

section
variable {rand : Byte} {i : Instr} {s : State}

theorem afterExec_of_instrFault {c : Fault} (h : instrFault i s = some c) :
    afterExec rand i s = { s with fault := some c } := by
  rw [afterExec, h]

theorem afterExec_of_no_instrFault (h : instrFault i s = none) :
    afterExec rand i s = timerStep (effectWith rand i (advancePc s)) := by
  rw [afterExec, h]

end

/-- R110: SP and I alone decide what an instruction raises. -/
theorem instrFault_congr {s s' : State} (hsp : s'.sp = s.sp) (hidx : s'.idx = s.idx) (i : Instr) :
    instrFault i s' = instrFault i s := by
  cases i <;> simp only [instrFault, hsp, hidx]

/-- R38, R112: the cycle of an effect on bytes at I, by the check of those bytes. -/
theorem cycle_onBytesAtI_next (count : Nat) (effect : State → State) (s : State) :
    cycle (onBytesAtI count effect) s = .next
      (match dataFault s.idx.toNat count with
      | some c => { s with fault := some c }
      | none => timerStep (effect (advancePc s))) := by
  rw [← boundsFault_eq_dataFault]
  obtain ⟨hnone, hok⟩ | ⟨c, hsome, herror⟩ := onBytesAtI_cases count effect (advancePc s)
  · rw [advancePc_idx] at hnone
    rw [hnone, cycle_ok hok]
  · rw [advancePc_idx] at hsome
    rw [hsome, cycle_error herror]

/-- R72, R114: RET pops, or raises at SP = 0. -/
theorem exec_ret_next (rand : Byte) (s : State) : exec .ret s = .next (afterExec rand .ret s) := by
  by_cases hempty : s.sp.val = 0
  · rw [exec_ret_empty hempty, afterExec, instrFault, if_pos hempty]
  · rw [exec_ret_ok (Nat.pos_of_ne_zero hempty), afterExec, instrFault, if_neg hempty]
    rfl

/-- R71, R113: CALL pushes and jumps, or raises at SP = 16. -/
theorem exec_callAddr_next (rand : Byte) (nnn : Addr) (s : State) :
    exec (.callAddr nnn) s = .next (afterExec rand (.callAddr nnn) s) := by
  by_cases hfull : s.sp.val = 16
  · rw [exec_callAddr_full nnn hfull, afterExec, instrFault, if_pos hfull]
  · have hroom : s.sp.val < 16 := by omega
    rw [exec_callAddr_ok nnn hroom, afterExec, instrFault, if_neg hfull]
    simp [effectWith, timerStep, Vector.setIfInBounds, Array.setIfInBounds, hroom]

/-- R60, R94, R118: the cycle of every instruction, with any random byte. -/
theorem execWith_next (rand : Byte) (i : Instr) (s : State) : execWith rand i s = .next (afterExec rand i s) := by
  cases i with
  | ret => exact exec_ret_next rand s
  | callAddr nnn => exact exec_callAddr_next rand nnn s
  | drwVxVyN | ldBVx | ldMemIVx | ldVxMemI => exact cycle_onBytesAtI_next _ _ s
  | _ => rfl

/-- R60, R118: the cycle of every instruction, with the free byte. -/
theorem exec_next (i : Instr) (s : State) : exec i s = .next (afterExec (freeRandom s) i s) := by
  rw [← execWith_freeRandom, execWith_next]

/-- The next state that exec answers is that one. -/
theorem eq_afterExec {i : Instr} {s t : State} (h : exec i s = .next t) : t = afterExec (freeRandom s) i s := by
  cases (exec_next i s).symm.trans h
  rfl

/-- R45: bytes that decode to an instruction make a word that does. -/
theorem decodeWord_of_decodeBytes {hi lo : Byte} {i : Instr} {rest : List Byte}
    (h : decodeBytes [hi, lo] = .ok (i, rest)) : decodeWord (wordOfBytes hi lo) = some i := by
  simp only [decodeBytes] at h
  split at h
  next hi =>
    cases h
    exact hi
  next => cases h

/-- R94: RND writes the masked free byte between the pc advance and the timer step. -/
theorem exec_rndVxNn (x : RegName) (nn : Byte) (s : State) :
    exec (.rndVxNn x nn) s =
      .next (timerStep (countDraw (randomMasked (Config.randomByte s.draws) x nn (advancePc s)))) := rfl

/-! ## The statements -/

/-- Settles O58, by the instruction that is next, which executes the same with the free byte handed in. -/
theorem stepIsTheCycleWithTheFreeByte : Obligations.StepIsTheCycleWithTheFreeByte := fun s =>
  cycleBy_congr fun i _ _ _ => (execWith_freeRandom i s).symm

/-- Settles O10: a latched machine stays as it is, a fetch or an instruction that raises is a next state too, and any other
cycle completes. -/
theorem everyStepAnswersANextState : Obligations.EveryStepAnswersANextState := by
  intro s
  obtain ⟨-, hstep⟩ | ⟨-, -, hstep⟩ | ⟨i, -, -, -, hstep⟩ | ⟨-, -, -, hstep⟩ := step_cases s
  · exact ⟨_, hstep⟩
  · exact ⟨_, hstep⟩
  · exact ⟨_, hstep.trans (exec_next i s)⟩
  · exact ⟨_, hstep⟩

/-- Settles O7, by the fetch of a running machine and by the word its two bytes make. -/
theorem stepRunsDecodedInstruction : Obligations.StepRunsDecodedInstruction := fun s _ _ hr hf hbytes =>
  (step_fetchable hr hf).trans (runWord_some exec (decodeWord_of_decodeBytes hbytes) s)

/-- Settles O34, by the masked byte that RND writes, whatever the free byte is; a byte within the mask is reached by itself. -/
theorem randomByteIsMasked : Obligations.RandomByteIsMasked := by
  intro x nn s
  have hread := fun rand r => readReg_randomMasked rand x r nn s
  have hx := fun rand => (hread rand x).trans (if_pos rfl)
  refine ⟨decodeWord_encode (.rndVxNn x nn), ⟨_, exec_rndVxNn x nn s, rfl, ?noBitOutside, ?others, rfl, rfl, ?timers, rfl⟩,
    hx, fun b hb => ⟨b, (hx b).trans (and_mask_of_and_not_mask hb)⟩⟩
  case noBitOutside => exact (congrArg (· &&& ~~~nn) (hx _)).trans (and_mask_and_not_mask _ nn)
  case others => exact fun r hr => (hread _ r).trans (if_neg hr)
  case timers => exact (timersStepped_timerStep _).congr_left rfl rfl

end Sys2Proof.Machine

/-! PROOFS. What each instruction writes, over all of them: the fields that drawing and the key wait leave alone, which instruction
changes which piece of state, and what is left in VF (R11, R18, R25). -/

namespace Sys2Proof.Machine

/-! ## Frames of drawing and of the key wait -/

@[simp] theorem drawSprite_pc (x y : RegName) (n : Nibble) (s : State) : (drawSprite x y n s).pc = s.pc := rfl
@[simp] theorem drawSprite_idx (x y : RegName) (n : Nibble) (s : State) : (drawSprite x y n s).idx = s.idx := rfl
@[simp] theorem drawSprite_stack (x y : RegName) (n : Nibble) (s : State) : (drawSprite x y n s).stack = s.stack := rfl
@[simp] theorem drawSprite_sp (x y : RegName) (n : Nibble) (s : State) : (drawSprite x y n s).sp = s.sp := rfl
@[simp] theorem drawSprite_keys (x y : RegName) (n : Nibble) (s : State) : (drawSprite x y n s).keys = s.keys := rfl
@[simp] theorem drawSprite_mem (x y : RegName) (n : Nibble) (s : State) : (drawSprite x y n s).mem = s.mem := rfl
@[simp] theorem drawSprite_draws (x y : RegName) (n : Nibble) (s : State) : (drawSprite x y n s).draws = s.draws := rfl

/-- R99: the key wait writes V[x] or takes the pc advance back. -/
theorem loadKey_cases (x : RegName) (s : State) : (∃ b, loadKey x s = writeReg x b s) ∨ loadKey x s = rewindPc s := by
  unfold loadKey
  split
  · exact .inl ⟨_, rfl⟩
  · exact .inr rfl

section
variable (x : RegName) (s : State)

@[simp] theorem loadKey_idx : (loadKey x s).idx = s.idx := by obtain ⟨b, h⟩ | h := loadKey_cases x s <;> simp [h]
@[simp] theorem loadKey_stack : (loadKey x s).stack = s.stack := by obtain ⟨b, h⟩ | h := loadKey_cases x s <;> simp [h]
@[simp] theorem loadKey_sp : (loadKey x s).sp = s.sp := by obtain ⟨b, h⟩ | h := loadKey_cases x s <;> simp [h]
@[simp] theorem loadKey_keys : (loadKey x s).keys = s.keys := by obtain ⟨b, h⟩ | h := loadKey_cases x s <;> simp [h]
@[simp] theorem loadKey_fb : (loadKey x s).fb = s.fb := by obtain ⟨b, h⟩ | h := loadKey_cases x s <;> simp [h]
@[simp] theorem loadKey_mem : (loadKey x s).mem = s.mem := by obtain ⟨b, h⟩ | h := loadKey_cases x s <;> simp [h]
@[simp] theorem loadKey_draws : (loadKey x s).draws = s.draws := by obtain ⟨b, h⟩ | h := loadKey_cases x s <;> simp [h]

end

/-! ## What an effect writes -/

section
variable {rand : Byte} {i : Instr} {s : State}

/-- R18: no instruction writes the keypad. -/
@[simp] theorem effectWith_keys : (effectWith rand i s).keys = s.keys := by cases i <;> simp [effectWith]

/-- R21: no completed instruction writes FAULT. -/
@[simp] theorem effectWith_fault : (effectWith rand i s).fault = s.fault := by cases i <;> simp [effectWith]

/-- R19: the screen's writers. -/
theorem writer_of_effectWith_fb_ne (h : (effectWith rand i s).fb ≠ s.fb) :
    i = .cls ∨ ∃ x y n, i = .drwVxVyN x y n := by
  cases i with
  | cls | drwVxVyN => simp
  | _ => exact absurd (by simp [effectWith]) h

/-- R20: memory's writers. -/
theorem writer_of_effectWith_mem_ne (h : (effectWith rand i s).mem ≠ s.mem) : ∃ x, i = .ldMemIVx x ∨ i = .ldBVx x := by
  cases i with
  | ldMemIVx | ldBVx => simp
  | _ => exact absurd (by simp [effectWith]) h

/-- R15: the stack's writer. -/
theorem writer_of_effectWith_stack_ne (h : (effectWith rand i s).stack ≠ s.stack) : ∃ nnn, i = .callAddr nnn := by
  cases i with
  | callAddr => simp
  | _ => exact absurd (by simp [effectWith]) h

/-- R15: the stack pointer's writers. -/
theorem writer_of_effectWith_sp_ne (h : (effectWith rand i s).sp ≠ s.sp) : i = .ret ∨ ∃ nnn, i = .callAddr nnn := by
  cases i with
  | ret | callAddr => simp
  | _ => exact absurd (by simp [effectWith]) h

/-- R14: the index register's writers. -/
theorem writer_of_effectWith_idx_ne (h : (effectWith rand i s).idx ≠ s.idx) :
    (∃ nnn, i = .ldINnn nnn) ∨ ∃ x, i = .addIVx x ∨ i = .ldFVx x := by
  cases i with
  | ldINnn | addIVx | ldFVx => simp
  | _ => exact absurd (by simp [effectWith]) h

/-- The writer of the model's counter of random bytes (log entry 2). -/
theorem writer_of_effectWith_draws_ne (h : (effectWith rand i s).draws ≠ s.draws) : ∃ x nn, i = .rndVxNn x nn := by
  cases i with
  | rndVxNn => simp
  | _ => exact absurd (by simp [effectWith]) h

end

/-! ## VF -/

/-- R11: a flag is 0 or 1. -/
theorem flagByte_eq_zero_or_one (f : Bool) : flagByte f = 0x00 ∨ flagByte f = 0x01 := by cases f <;> decide

/-- R12: after a result and its flag, VF holds the flag, whatever the destination. -/
theorem readReg_vf_writeResultAndFlag (x : RegName) (b : Byte) (f : Bool) (s : State) :
    readReg (writeResultAndFlag x b f s) 0xF = 0x00 ∨ readReg (writeResultAndFlag x b f s) 0xF = 0x01 := by
  rw [readReg_writeResultAndFlag, if_pos rfl]
  exact flagByte_eq_zero_or_one f

/-- R96, R12: after drawing, VF holds the collision. -/
theorem readReg_vf_drawSprite (x y : RegName) (n : Nibble) (s : State) :
    readReg (drawSprite x y n s) 0xF = 0x00 ∨ readReg (drawSprite x y n s) 0xF = 0x01 := by
  rw [drawSprite, readReg_writeFlag, if_pos rfl]
  exact flagByte_eq_zero_or_one _

/-- R11: a write to another register leaves VF. -/
theorem readReg_vf_writeReg {x : RegName} (hx : x ≠ 0xF) (b : Byte) (s : State) :
    readReg (writeReg x b s) 0xF = readReg s 0xF :=
  (readReg_writeReg x 0xF b s).trans (if_neg hx.symm)

/-- R99: the key wait leaves VF if it is not its destination. -/
theorem readReg_vf_loadKey {x : RegName} (hx : x ≠ 0xF) (s : State) : readReg (loadKey x s) 0xF = readReg s 0xF := by
  obtain ⟨b, h⟩ | h := loadKey_cases x s
  · rw [h, readReg_vf_writeReg hx]
  · rw [h]
    rfl

/-- R104: a load of V[0] to V[x] with x below 15 leaves VF. -/
theorem readReg_vf_loadRegsAtI {x : RegName} (hx : x ≠ 0xF) (s : State) :
    readReg (loadRegsAtI x s) 0xF = readReg s 0xF :=
  (readReg_loadRegsAtI x 0xF s).trans (if_neg (by bv_omega))

/-- A cycle of a running machine that ends in a running machine has latched nothing. -/
theorem afterExec_of_running {rand : Byte} {i : Instr} {s : State} (ht : Running (afterExec rand i s)) :
    afterExec rand i s = timerStep (effectWith rand i (advancePc s)) := by
  cases hcause : instrFault i s with
  | some c =>
    rw [afterExec_of_instrFault hcause] at ht
    cases ht
  | none => exact afterExec_of_no_instrFault hcause

/-! ## The statements -/

/-- Settles O53: a latched condition changes FAULT only, and a completed cycle changes, beside pc and the timers, what the
instruction's effect does. -/
theorem onlyTheListedInstructionsWrite : Obligations.OnlyTheListedInstructionsWrite := by
  intro i s t h
  cases eq_afterExec h
  cases hcause : instrFault i s with
  | some c => simp [afterExec_of_instrFault hcause]
  | none =>
    rw [afterExec_of_no_instrFault hcause]
    exact ⟨effectWith_keys (s := advancePc s), writer_of_effectWith_fb_ne (s := advancePc s),
      writer_of_effectWith_mem_ne (s := advancePc s), writer_of_effectWith_stack_ne (s := advancePc s),
      writer_of_effectWith_sp_ne (s := advancePc s), writer_of_effectWith_idx_ne (s := advancePc s),
      writer_of_effectWith_draws_ne (s := advancePc s)⟩

/-- Settles O30, by the last write of the six flag writers, by the one register an instruction with a destination writes, and by
the effects that write no register. -/
theorem onlyFlagWritersChangeVfImplicitly : Obligations.OnlyFlagWritersChangeVfImplicitly := by
  intro i s t h _ ht
  cases eq_afterExec h
  rw [afterExec_of_running ht]
  cases i with
  | addVxVy | subVxVy | subnVxVy | shrVx | shlVx =>
    exact readReg_vf_writeResultAndFlag _ _ _ (advancePc s)
  | drwVxVyN x y n => exact readReg_vf_drawSprite x y n (advancePc s)
  | ldVxNn | addVxNn | rndVxNn | ldVxVy | orVxVy | andVxVy | xorVxVy | ldVxDT =>
    exact fun hx => readReg_vf_writeReg hx _ (advancePc s)
  | ldVxK => exact fun hx => readReg_vf_loadKey hx (advancePc s)
  | ldVxMemI => exact fun hx => readReg_vf_loadRegsAtI hx (advancePc s)
  | seVxNn | sneVxNn | seVxVy | sneVxVy | skpVx | sknpVx => exact readReg_skipIf _ (advancePc s) 0xF
  | _ => rfl

end Sys2Proof.Machine

/-! PROOFS. What a cycle does not depend on: two machines in which the same word is next and the same condition is raised step
alike, so the keypad, the random byte and the sound timer matter only to the instructions that read them (R17, R94, R138). -/

namespace Sys2Proof.Machine

/-! ## Two machines in step -/

/-- The two states are at the same point: the same word is next and, whatever it is, the same condition is raised. -/
structure SameCourse (s s' : State) : Prop where
  fault : s'.fault = s.fault
  pc : s'.pc = s.pc
  mem : s'.mem = s.mem
  sp : s'.sp = s.sp
  idx : s'.idx = s.idx

section
variable {s s' : State}

theorem SameCourse.running_iff (h : SameCourse s s') : Running s' ↔ Running s := by
  rw [Running, Running, h.fault]

theorem SameCourse.fetchable_iff (h : SameCourse s s') : Fetchable s' ↔ Fetchable s := by
  rw [Fetchable, Fetchable, h.pc]

theorem SameCourse.nextWord (h : SameCourse s s') : nextWord s' = nextWord s := by
  simp only [Machine.nextWord, memByte, h.pc, h.mem]

/-- A relation between two machines at the same point is kept by a step of both, if it is kept by latching a condition, by a no-op
and by the effect of the instruction that is next. -/
theorem SameCourse.step_step {R : State → State → Prop} (h : SameCourse s s') (hstay : R s s')
    (hraise : ∀ c, R { s with fault := some c } { s' with fault := some c })
    (hnoop : R (timerStep (advancePc s)) (timerStep (advancePc s')))
    (heffect : ∀ i, decodeWord (Machine.nextWord s) = some i →
      R (timerStep (effectWith (freeRandom s) i (advancePc s))) (timerStep (effectWith (freeRandom s') i (advancePc s')))) :
    ∃ t t', step s = .next t ∧ step s' = .next t' ∧ R t t' := by
  obtain ⟨⟨c, hc⟩, hstep⟩ | ⟨hr, hf, hstep⟩ | ⟨i, hr, hf, hi, hstep⟩ | ⟨hr, hf, hw, hstep⟩ := step_cases s
  · exact ⟨_, _, hstep, step_latched (h.fault.trans hc), hstay⟩
  · have haddr : (if s'.pc = 0xFFF then 0x1000 else s'.pc) = if s.pc = 0xFFF then 0x1000 else s.pc := by rw [h.pc]
    have hstep' := step_unfetchable (h.running_iff.2 hr) (h.fetchable_iff.not.2 hf)
    rw [haddr] at hstep'
    exact ⟨_, _, hstep, hstep', hraise _⟩
  · have hstep' := step_fetchable (h.running_iff.2 hr) (h.fetchable_iff.2 hf)
    rw [h.nextWord, runWord_some exec hi, exec_next] at hstep'
    refine ⟨_, _, hstep.trans (exec_next i s), hstep', ?_⟩
    rw [afterExec, afterExec, instrFault_congr h.sp h.idx]
    split
    · exact hraise _
    · exact heffect i hi
  · have hstep' := step_fetchable (h.running_iff.2 hr) (h.fetchable_iff.2 hf)
    rw [h.nextWord, runWord_none exec hw] at hstep'
    exact ⟨_, _, hstep, hstep', hnoop⟩

/-- The same, where the second machine is a change of the first: the change can be made before the step or after it. -/
theorem SameCourse.step_eq_mapNext {f : State → State} (h : SameCourse s (f s))
    (hraise : ∀ c, { f s with fault := some c } = f { s with fault := some c })
    (hnoop : timerStep (advancePc (f s)) = f (timerStep (advancePc s)))
    (heffect : ∀ i, decodeWord (Machine.nextWord s) = some i →
      timerStep (effectWith (freeRandom (f s)) i (advancePc (f s))) =
        f (timerStep (effectWith (freeRandom s) i (advancePc s)))) :
    step (f s) = mapNext f (step s) := by
  obtain ⟨t, t', hstep, hstep', rfl⟩ := h.step_step (R := fun t t' => t' = f t) rfl hraise hnoop heffect
  rw [hstep, hstep']
  rfl

end

/-! ## Effects and changes that they do not see -/

/-- A skip decided beforehand commutes with a change that the pc advance commutes with. -/
theorem skipIf_comm {f : State → State} {s : State} (h : advancePc (f s) = f (advancePc s)) (condition : Bool) :
    skipIf condition (f s) = f (skipIf condition s) := by
  cases condition
  · rfl
  · exact h

/-- A key wait commutes with a change that keeps the keypad and that a register write and the rewind commute with. -/
theorem loadKey_comm {f : State → State} {x : RegName} {s : State} (hkeys : (f s).keys = s.keys)
    (hwrite : ∀ b, writeReg x b (f s) = f (writeReg x b s)) (hrewind : rewindPc (f s) = f (rewindPc s)) :
    loadKey x (f s) = f (loadKey x s) := by
  rw [loadKey, loadKey, hkeys]
  split
  · exact hwrite _
  · exact hrewind

/-- R138: an instruction that does not read the keypad has the same effect with another one. -/
theorem effectWith_setKeys (rand : Byte) {i : Instr} (h : readsKeys i = false) (k : Vector Bool 16) (s : State) :
    effectWith rand i (setKeys k s) = setKeys k (effectWith rand i s) := by
  cases i with
  | skpVx | sknpVx | ldVxK => cases h
  | seVxNn | sneVxNn | seVxVy | sneVxVy => exact skipIf_comm (f := setKeys k) rfl _
  | _ => rfl

/-- R94: an instruction that does not read the random byte has the same effect with another one, at another count. -/
theorem effectWith_draws (rand rand' : Byte) {i : Instr} (h : readsRandom i = false) (d : Nat) (s : State) :
    effectWith rand' i { s with draws := d } = { effectWith rand i s with draws := d } := by
  cases i with
  | rndVxNn => cases h
  | seVxNn | sneVxNn | seVxVy | sneVxVy | skpVx | sknpVx =>
    exact skipIf_comm (f := fun t => { t with draws := d }) rfl _
  | ldVxK => exact loadKey_comm (f := fun t => { t with draws := d }) rfl (fun _ => rfl) rfl
  | _ => rfl

/-- R17: an instruction has the same effect with another sound timer, but for the sound timer. -/
theorem effectWith_st (rand : Byte) (i : Instr) (b : Byte) (s : State) :
    ∃ b', effectWith rand i { s with st := b } = { effectWith rand i s with st := b' } := by
  cases i with
  | ldSTVx x => exact ⟨readReg s x, rfl⟩
  | seVxNn | sneVxNn | seVxVy | sneVxVy | skpVx | sknpVx =>
    exact ⟨b, skipIf_comm (f := fun t => { t with st := b }) rfl _⟩
  | ldVxK => exact ⟨b, loadKey_comm (f := fun t => { t with st := b }) rfl (fun _ => rfl) rfl⟩
  | _ => exact ⟨b, rfl⟩

/-! ## The statements -/

/-- Settles O54: the keypad decides neither the course of a step nor the effect of an instruction that does not read it. -/
theorem keypadMattersOnlyToItsInstructions : Obligations.KeypadMattersOnlyToItsInstructions := by
  intro s k hreads
  refine SameCourse.step_eq_mapNext (f := setKeys k) ⟨rfl, rfl, rfl, rfl, rfl⟩ (fun _ => rfl) rfl fun i hi => ?_
  exact congrArg timerStep (effectWith_setKeys (freeRandom s) (hreads i hi) k (advancePc s))

/-- Settles O55: the count of random bytes decides neither the course of a step nor the effect of an instruction other than
RND. -/
theorem randomByteMattersOnlyToRnd : Obligations.RandomByteMattersOnlyToRnd := by
  intro s d hreads
  refine SameCourse.step_eq_mapNext (f := fun t => { t with draws := d }) ⟨rfl, rfl, rfl, rfl, rfl⟩ (fun _ => rfl) rfl
    fun i hi => ?_
  exact congrArg timerStep (effectWith_draws (freeRandom s) _ (hreads i hi) d (advancePc s))

/-- Settles O56: the sound timer decides neither the course of a step nor what an instruction does to anything else. -/
theorem soundTimerIsNeverRead : Obligations.SoundTimerIsNeverRead := by
  intro s b
  have hcourse : SameCourse s { s with st := b } := ⟨rfl, rfl, rfl, rfl, rfl⟩
  obtain ⟨t, t', hstep, hstep', b', rfl⟩ :=
    hcourse.step_step (R := fun t t' => ∃ b', t' = { t with st := b' }) ⟨_, rfl⟩ (fun _ => ⟨_, rfl⟩) ⟨_, rfl⟩ fun i _ => by
      obtain ⟨b', hb'⟩ := effectWith_st (freeRandom s) i b (advancePc s)
      exact ⟨countDown b', congrArg timerStep hb'⟩
  exact ⟨t, _, hstep, hstep', rfl⟩

end Sys2Proof.Machine

/-! PROOFS. The invariant of every run: what keeps it (latching, the timer step, each effect, each move of the host), that it holds
at reset, and the statements that collect these facts (R13, R15, R21, R24, R137). -/

namespace Sys2Proof.Machine

/-! ## Updates that keep the invariant -/

section
variable {s : State}

/-- R110: latching a condition keeps the invariant if the address reported lies outside memory. -/
theorem Inv.latch (h : Inv s) {c : Fault} (hc : ∀ a : Word, c = .outOfBounds a → 0x1000 ≤ a.toNat) :
    Inv { s with fault := some c } :=
  ⟨h.mem_wf, h.pc_le, h.stack_le, fun a ha => hc a (Option.some.inj ha)⟩

/-- R65: the timers are no part of the invariant. -/
theorem Inv.timerStep (h : Inv s) : Inv (timerStep s) := ⟨h.mem_wf, h.pc_le, h.stack_le, h.fault_addr⟩

/-- R18: the keypad is no part of the invariant. -/
theorem Inv.setKeys (h : Inv s) (k : Vector Bool 16) : Inv (setKeys k s) := ⟨h.mem_wf, h.pc_le, h.stack_le, h.fault_addr⟩

/-- R38: bytes that pass the check at I lie inside memory. -/
theorem idx_add_le_of_dataFault {count : Nat} (h : dataFault s.idx.toNat count = none) (hcount : count ≠ 0) :
    s.idx.toNat + count ≤ 0x1000 := by
  rw [← boundsFault_eq_dataFault, boundsFault_eq_none_iff] at h
  exact h.resolve_left hcount

/-- R39: a store of bytes that pass the check keeps memory canonical. -/
theorem storeAtI_mem_wf (hwf : Memory.wf s.mem = true) {bs : List Byte} (hfits : s.idx.toNat + bs.length ≤ 0x1000) :
    Memory.wf (storeAtI bs s).mem = true :=
  writeCells_wf hwf s.idx.toNat bs hfits

/-! ## Effects keep the invariant -/

/-- R20: every effect keeps memory canonical. -/
theorem effectWith_mem_wf (rand : Byte) {i : Instr} (hcause : instrFault i s = none) (hwf : Memory.wf s.mem = true) :
    Memory.wf (effectWith rand i s).mem = true := by
  cases i with
  | ldBVx x => exact storeAtI_mem_wf hwf (idx_add_le_of_dataFault hcause (Nat.succ_ne_zero 2))
  | ldMemIVx x =>
    exact storeAtI_mem_wf hwf ((length_regsUpTo x s).symm ▸ idx_add_le_of_dataFault hcause (Nat.succ_ne_zero _))
  | _ => simpa [effectWith] using hwf

/-- R15: every effect after a fetch keeps the stack's entries at most 0x1000: CALL alone writes one, the advanced pc. -/
theorem effectWith_stack_le (rand : Byte) (i : Instr) (hpc : s.pc.toNat ≤ 0x1000)
    (hstack : ∀ (j : Nat) (h : j < 16), (s.stack[j]'h).toNat ≤ 0x1000) (j : Nat) (h : j < 16) :
    ((effectWith rand i s).stack[j]'h).toNat ≤ 0x1000 := by
  cases i with
  | callAddr =>
    simp only [effectWith, Vector.getElem_setIfInBounds]
    split
    · exact hpc
    · exact hstack j h
  | _ => simpa [effectWith] using hstack j h

/-- R62: where a fetch can have succeeded, the advanced pc is at most 0x1000. -/
theorem Fetchable.advancePc_pc_le (h : Fetchable s) : (advancePc s).pc.toNat ≤ 0x1000 :=
  h.toNat_pc_add_two.trans_le (Nat.add_le_add_right h 2)

/-- R13: after a fetch every effect leaves pc at most 0x10FE, the sum of the largest address and the largest byte, which
JP V0,addr can reach. -/
theorem effectWith_pc_le (rand : Byte) (i : Instr) (hf : Fetchable s)
    (hstack : ∀ (j : Nat) (h : j < 16), (s.stack[j]'h).toNat ≤ 0x1000) :
    (effectWith rand i (advancePc s)).pc.toNat ≤ 0x10FE := by
  have hadvanced := hf.advancePc_pc_le
  cases i with
  | ret => exact (hstack _ _).trans (by decide)
  | jpAddr nnn | callAddr nnn =>
    have hnnn := nnn.isLt
    have hpc := toNat_zextAddr nnn
    simp only [effectWith, jumpTo_pc]
    omega
  | jpV0Addr nnn =>
    have hnnn := nnn.isLt
    have hv0 := (readReg (advancePc s) v0).isLt
    have hpc := toNat_offsetTarget nnn (readReg (advancePc s) v0)
    simp only [effectWith, jumpTo_pc]
    omega
  | seVxNn | sneVxNn | seVxVy | sneVxVy | skpVx | sknpVx =>
    simp only [effectWith, skipIf_pc]
    split
    · bv_omega
    · omega
  | ldVxK x =>
    obtain ⟨b, hkey⟩ | hkey := loadKey_cases x (advancePc s) <;> simp only [effectWith, hkey]
    · exact hadvanced.trans (by decide)
    · rw [rewindPc_advancePc]
      exact Nat.le_trans hf (by decide)
  | _ => exact hadvanced.trans (by decide)

/-! ## Cycles and the host's moves keep the invariant -/

/-- The cycle of an instruction keeps the invariant, whether it latches a condition or completes. -/
theorem Inv.afterExec (h : Inv s) (hf : Fetchable s) (rand : Byte) (i : Instr) : Inv (afterExec rand i s) := by
  cases hcause : instrFault i s with
  | some c =>
    rw [afterExec_of_instrFault hcause]
    refine h.latch fun a ha => ?_
    subst ha
    obtain ⟨count, hcount⟩ := exists_dataCount_of_instrFault hcause
    exact dataFault_address ((instrFault_of_dataCount hcount s).symm.trans hcause)
  | none =>
    rw [afterExec_of_no_instrFault hcause]
    have hcause' : instrFault i (advancePc s) = none := (instrFault_congr rfl rfl i).trans hcause
    have heffect : Inv (effectWith rand i (advancePc s)) :=
      ⟨effectWith_mem_wf rand hcause' h.mem_wf, effectWith_pc_le rand i hf h.stack_le,
        effectWith_stack_le rand i hf.advancePc_pc_le h.stack_le,
        fun a ha => h.fault_addr a ((effectWith_fault (s := advancePc s)).symm.trans ha)⟩
    exact heffect.timerStep

/-- The no-op of an unknown word keeps the invariant (R64). -/
theorem Inv.noop (h : Inv s) (hf : Fetchable s) : Inv (Machine.timerStep (advancePc s)) :=
  ⟨h.mem_wf, hf.advancePc_pc_le.trans (by decide), h.stack_le, h.fault_addr⟩

/-- Every cycle keeps the invariant, whatever its random byte. -/
theorem Inv.cycleWith (h : Inv s) (rand : Byte) : ∃ t, cycleWith rand s = .next t ∧ Inv t := by
  obtain ⟨-, hcycle⟩ | ⟨-, hf, hcycle⟩ | ⟨i, -, hf, -, hcycle⟩ | ⟨-, hf, -, hcycle⟩ := cycleBy_cases (execWith rand) s
  · exact ⟨s, hcycle, h⟩
  · refine ⟨_, hcycle, h.latch fun a ha => ?_⟩
    cases ha
    exact fetchFault_address (Nat.lt_of_not_le hf)
  · exact ⟨_, hcycle.trans (execWith_next rand i s), h.afterExec hf rand i⟩
  · exact ⟨_, hcycle, h.noop hf⟩

end

/-- R24: the reset state meets the invariant. -/
theorem inv_reset : Inv State.reset :=
  ⟨Memory.wf_nil, by decide, fun j h => (stack_loaded [] State.reset j h).symm ▸ Nat.zero_le _, nofun⟩

/-- R130, R131: so does the reset state with an image that fits laid down in memory. -/
theorem inv_loaded {rom : List Byte} (h : rom.length ≤ 3584) (s : State) : Inv (loaded rom s) := by
  have hfits : 0x200 + rom.length ≤ 0x1000 := by omega
  exact ⟨writeCells_wf Memory.wf_nil 0x200 rom hfits, inv_reset.pc_le, inv_reset.stack_le, nofun⟩

/-- R122: every move of the host keeps the invariant. -/
theorem Inv.afterMove {s : State} (h : Inv s) (move : HostMove) : Inv (afterMove move s) := by
  cases move with
  | reset rom =>
    by_cases hfits : rom.length ≤ 3584
    · exact (afterMove_reset_of_length_le hfits s).symm ▸ inv_loaded hfits s
    · exact (afterMove_reset_of_lt_length (Nat.lt_of_not_le hfits) s).symm ▸ h
  | setKeys k => exact h.setKeys k
  | cycle rand =>
    obtain ⟨t, ht, hinv⟩ := h.cycleWith rand
    simpa only [Machine.afterMove, hostMove, ht] using hinv

/-! ## The statements -/

/-- Settles O50: a step is the cycle with the free byte, and every cycle keeps the invariant. -/
theorem invariantKeptByEveryStep : Obligations.InvariantKeptByEveryStep := by
  intro s t h hstep
  obtain ⟨u, hu, hinv⟩ := h.cycleWith (Config.randomByte s.draws)
  cases (hu.symm.trans (stepIsTheCycleWithTheFreeByte s).symm).trans hstep
  exact hinv

/-- Settles O51, by induction on the host's moves. -/
theorem invariantHoldsAlongEveryHostRun : Obligations.InvariantHoldsAlongEveryHostRun := by
  intro moves
  induction moves with
  | nil => exact fun _ h => h
  | cons move moves ih => exact fun s h => ih (afterMove move s) (h.afterMove move)

/-- Settles O49, piece by piece of the reset state. -/
theorem invariantHoldsAtReset : Obligations.InvariantHoldsAtReset := inv_reset

/-- Settles O48: the empty image fits, and nothing is laid down in memory. -/
theorem startStateIsResetWithTheEmptyRom : Obligations.StartStateIsResetWithTheEmptyRom := fun s =>
  resetRom_of_length_le (Nat.zero_le _) s

end Sys2Proof.Machine

/-! PROOFS. The timers over several cycles: what LD DT,Vx and LD ST,Vx set is counted down by every cycle that does not set it
again, until LD Vx,DT reads it or SOUND ends (R17, R65, R66, R100 to R102). -/

namespace Sys2Proof.Machine

/-! ## The three instructions -/

/-- R100: LD Vx,DT writes the timer as it was before this cycle's step. -/
theorem exec_ldVxDT (x : RegName) (s : State) :
    exec (.ldVxDT x) s = .next (timerStep (writeReg x s.dt (advancePc s))) := rfl

/-- R101: LD DT,Vx writes the timer before this cycle's step. -/
theorem exec_ldDTVx (x : RegName) (s : State) :
    exec (.ldDTVx x) s = .next (timerStep { advancePc s with dt := readReg s x }) := rfl

/-- R102: LD ST,Vx writes the timer before this cycle's step. -/
theorem exec_ldSTVx (x : RegName) (s : State) :
    exec (.ldSTVx x) s = .next (timerStep { advancePc s with st := readReg s x }) := rfl

/-! ## Timers counted down over several cycles -/

section
variable {s t : State} (hs : Running s) (hstep : step s = .next t) (ht : Running t)
include hs hstep ht

/-- R65: a cycle that raises nothing and does not set DT counts it down. -/
theorem dt_of_step (hset : ∀ z, decodeWord (nextWord s) ≠ some (.ldDTVx z)) : t.dt.toNat = s.dt.toNat - 1 := by
  obtain ⟨hdt, -⟩ := timersStepInEveryCycle s t hs hstep ht
  split at hdt
  next z hz => exact absurd hz (hset z)
  next => exact hdt

/-- R65: a cycle that raises nothing and does not set ST counts it down. -/
theorem st_of_step (hset : ∀ z, decodeWord (nextWord s) ≠ some (.ldSTVx z)) : t.st.toNat = s.st.toNat - 1 := by
  obtain ⟨-, hst⟩ := timersStepInEveryCycle s t hs hstep ht
  split at hst
  next z hz => exact absurd hz (hset z)
  next => exact hst

end

/-- A number that loses 1 at each of `k` steps, never below 0, has lost `k`. -/
theorem eq_sub_of_countdown {g : Nat → Nat} {k : Nat} (h : ∀ j < k, g (j + 1) = g j - 1) : g k = g 0 - k := by
  induction k with
  | zero => rfl
  | succ k ih =>
    rw [h k (Nat.lt_succ_self k), ih fun j hj => h j (Nat.lt_succ_of_lt hj)]
    omega

/-- R17: SOUND is true while ST is not 0. -/
theorem sound_iff (s : State) : sound s = true ↔ 0 < s.st.toNat := by
  rw [sound, bne_iff_ne, Nat.pos_iff_ne_zero, ne_eq, ne_eq, BitVec.toNat_eq]
  rfl

/-! ## The statements -/

/-- Settles O12: LD DT,Vx leaves V[x] - 1, each of the k - 1 cycles after it takes 1 more, and LD Vy,DT reads what is left. -/
theorem delayTimerReadsBackLessElapsedCycles : Obligations.DelayTimerReadsBackLessElapsedCycles := by
  intro run k x y u hset hrun hk hread
  obtain ⟨k, rfl⟩ := Nat.exists_eq_add_of_le' hk
  obtain ⟨hstart, -⟩ := exec_ldDTVx_timers hset
  have hcount : (run (k + 1)).dt.toNat = (run 1).dt.toNat - k := by
    refine eq_sub_of_countdown (g := fun j => (run (j + 1)).dt.toNat) fun j hj => ?_
    obtain ⟨hs, ht, hstep, hnoset⟩ := hrun (j + 1) (Nat.succ_pos j) (Nat.succ_lt_succ hj)
    exact dt_of_step hs hstep ht hnoset
  cases hread.symm.trans (exec_ldVxDT y (run (k + 1)))
  rw [readReg_timerStep, readReg_writeReg_same, hcount, hstart]
  omega

/-- Settles O40, by the register write of the one and the timer write of the other, each before the timer step. -/
theorem delayTimerInstructions : Obligations.DelayTimerInstructions := by
  intro x s
  refine ⟨⟨decodeWord_encode (.ldVxDT x), exec_of_writeReg (exec_ldVxDT x s)⟩, decodeWord_encode (.ldDTVx x), ?_⟩
  obtain ⟨hdt, hst⟩ := exec_ldDTVx_timers (exec_ldDTVx x s)
  exact ⟨_, exec_ldDTVx x s, hdt, hst, rfl, rfl⟩

/-- Settles O41: LD ST,Vx leaves V[x] - 1, each of the k cycles after it takes 1 more, and SOUND is true while any is left. -/
theorem soundTimerDrivesSound : Obligations.SoundTimerDrivesSound := by
  intro x s
  obtain ⟨hdt, hst⟩ := exec_ldSTVx_timers (exec_ldSTVx x s)
  refine ⟨decodeWord_encode (.ldSTVx x), _, exec_ldSTVx x s, hst, hdt, rfl, rfl, fun run k hstart hrun => ?_⟩
  have hcount : (run k).st.toNat = (run 0).st.toNat - k := by
    refine eq_sub_of_countdown (g := fun j => (run j).st.toNat) fun j hj => ?_
    obtain ⟨hs, ht, hstep, hnoset⟩ := hrun j hj
    exact st_of_step hs hstep ht hnoset
  rw [sound_iff, hcount, hstart, hst]
  omega

end Sys2Proof.Machine

/-! PROOFS. What was stored is seen by later cycles: LD Vx,[I] loads it back and the fetch reads it (R42, R104). -/

namespace Sys2Proof.Machine

/-- R103: the bytes that LD [I],Vx stores, register by register. -/
theorem regsUpTo_eq_map (x : RegName) (s : State) :
    regsUpTo x s = (List.range (x.toNat + 1)).map fun j => readReg s (BitVec.ofNat 4 j) := by
  refine List.ext_getElem (by simp) fun j hj _ => ?_
  have hx := x.isLt
  rw [length_regsUpTo] at hj
  have hmod : j % 16 = j := Nat.mod_eq_of_lt (by omega)
  simp [regsUpTo, readReg, hmod]

/-- R42: a fetch from any state that holds the stored memory gives the bytes as the store left them. -/
theorem fetchWord_of_storeAtI {bs : List Byte} {s u : State} (hwf : Memory.wf s.mem = true)
    (hfits : s.idx.toNat + bs.length ≤ 0x1000) (hmem : u.mem = (storeAtI bs s).mem) (hf : Fetchable u) :
    fetchWord u = .ok (wordOfBytes (byteAfterStore bs s u.pc.toNat) (byteAfterStore bs s (u.pc.toNat + 1))) := by
  have hbyte (a : Nat) : memByte u a = byteAfterStore bs s a := by
    rw [memByte, hmem]
    exact memByte_storeAtI hwf hfits a
  rw [fetchWord_ok hf, nextWord, hbyte, hbyte]

/-! ## The statements -/

/-- Settles O45: the load reads the cells from I on, which hold V[0] to V[x] since the store. -/
theorem loadUndoesStore : Obligations.LoadUndoesStore := by
  intro x s t u w hwf hfits hstore hmem hidx hload j hj
  cases hstore.symm.trans (exec_ldMemIVx_ok hfits)
  cases hload.symm.trans (exec_ldVxMemI_ok (hidx ▸ hfits))
  have hlen := length_regsUpTo x s
  calc readReg (timerStep (loadRegsAtI x (advancePc u))) j
    _ = memByte u (u.idx.toNat + j.toNat) := (readReg_loadRegsAtI x j (advancePc u)).trans (if_pos hj)
    _ = memByte (storeAtI (regsUpTo x s) s) (s.idx.toNat + j.toNat) := by rw [memByte, hmem, hidx]; rfl
    _ = byteAfterStore (regsUpTo x s) s (s.idx.toNat + j.toNat) := memByte_storeAtI hwf (by omega) _
    _ = readReg s j := by rw [byteAfterStore_idx_add (by omega), getD_regsUpTo hj]

/-- Settles O46, by the fetch after a store, of the registers or of the digits. -/
theorem storeIsSeenByTheNextFetch : Obligations.StoreIsSeenByTheNextFetch := by
  intro x s t u hwf hmem hf
  refine ⟨fun hfits hstore => ?registers, fun hfits hstore => ?digits⟩
  case registers =>
    cases hstore.symm.trans (exec_ldMemIVx_ok hfits)
    rw [← regsUpTo_eq_map]
    exact fetchWord_of_storeAtI hwf (by rw [length_regsUpTo]; omega) hmem hf
  case digits =>
    cases hstore.symm.trans (exec_ldBVx_ok x hfits)
    exact fetchWord_of_storeAtI hwf (Nat.succ_le_succ hfits) hmem hf

end Sys2Proof.Machine

/-! PROOFS. The screen as seen from outside one draw: a sprite drawn twice, and the packed row (R19, R96). -/

namespace Sys2Proof.Machine

/-- R96: a sprite's position and bytes are those of V[x], V[y], I and memory. -/
theorem spriteAt_congr {s t : State} {x y : RegName} (hx : readReg t x = readReg s x) (hy : readReg t y = readReg s y)
    (hidx : t.idx = s.idx) (hmem : t.mem = s.mem) (n : Nibble) : spriteAt t x y n = spriteAt s x y n := by
  funext r c
  simp only [spriteAt, memByte, hx, hy, hidx, hmem]

/-! ## The statements -/

/-- Settles O37: a sprite that lies in memory is the same for both draws, so it toggles every pixel back, and what it meets the
second time is what it turned on the first time; one that does not is never drawn. -/
theorem drawingTwiceRestoresTheScreen : Obligations.DrawingTwiceRestoresTheScreen := by
  intro x y n s t u hx hy hfirst hsecond
  by_cases hfits : n.toNat = 0 ∨ s.idx.toNat + (n.toNat - 1) ≤ 0xFFF
  · obtain ⟨-, hdraw, -⟩ := drawTogglesSpriteAndReportsCollision x y n s
    obtain ⟨t', ht', hpix, -, -, hregs, -, -, hframe⟩ := hdraw hfits
    cases ht'.symm.trans hfirst
    have hidx : t.idx = s.idx := by rw [hframe]
    have hmem : t.mem = s.mem := by rw [hframe]
    have hsprite : spriteAt t x y n = spriteAt s x y n := spriteAt_congr (hregs x hx) (hregs y hy) hidx hmem n
    obtain ⟨-, hdraw', -⟩ := drawTogglesSpriteAndReportsCollision x y n t
    obtain ⟨u', hu', hpix', hone, hzero, -⟩ := hdraw' (hidx.symm ▸ hfits)
    cases hu'.symm.trans hsecond
    simp only [hsprite, hpix] at hpix' hone hzero
    refine ⟨framebuffer_ext fun r c => ?restored, fun _ => ⟨?collision, ?turnedOn⟩⟩
    case restored => rw [hpix', Bool.xor_assoc, Bool.xor_self, Bool.xor_false]
    case collision =>
      intro hvf
      by_contra hnone
      have hclear : readReg u 0xF = 0x00 :=
        hzero fun r c ⟨hset, hlit⟩ => hnone ⟨r, c, hset, by simpa [hset] using hlit⟩
      exact absurd (hclear.symm.trans hvf) (by decide)
    case turnedOn =>
      rintro ⟨r, c, hset, hoff⟩
      exact hone ⟨r, c, hset, by rw [hset, hoff]; rfl⟩
  · have hout : 0 < n.toNat ∧ 0xFFF < s.idx.toNat + (n.toNat - 1) := by omega
    cases hfirst.symm.trans (exec_drwVxVyN_error x y hout.1 hout.2)
    cases hsecond.symm.trans (exec_drwVxVyN_error x y hout.1 hout.2)
    exact ⟨rfl, fun h => absurd h hfits⟩

/-- Settles O52, by the bit that packing puts at each column. -/
theorem packedRowBitIsColumn : Obligations.PackedRowBitIsColumn := by
  intro s r c
  rw [fbRow, BitVec.getLsbD_ofFnLE, dif_pos c.isLt]

end Sys2Proof.Machine
